-- ==== Sys2Proof/Word.lean ====
section
/-! DEFINITION. The machine's value types (00_scope.md R13, R14): every architectural value is an unsigned
integer of a stated width. -/

namespace Sys2Proof

/-- A 16-bit data value or address (R13: `XLEN`, `ALEN`). -/
abbrev Word := BitVec 16

/-- One byte of memory or of an instruction (R50). -/
abbrev Byte := BitVec 8

/-- The 48-bit instruction word (R80: `ILEN`). -/
abbrev InstrWord := BitVec 48

end Sys2Proof
end

