-- ==== Sys2Proof/Config.lean ====
section
/-! DEFINITION. The implementation parameters that 00_scope.md R13 leaves open. They are fixed before a run
(R227, R291): no step changes them. -/

namespace Sys2Proof

/-- The five open parameters of R13. -/
structure Config where
  /-- `TRACE_ENABLE` (R227): whether steps append trace lines. -/
  traceEnable : Bool
  /-- `HEX_UPPER` (R222): whether rendered hexadecimal digits are upper case. -/
  hexUpper : Bool
  /-- `ES_DEPTH` (R30): the evaluation stack's capacity; `none` is unbounded. -/
  esDepth : Option Nat
  /-- `CS_DEPTH` (R30): the call stack's capacity; `none` is unbounded. -/
  csDepth : Option Nat
  /-- `HOST_RESUME` (R253): whether the host may set a faulted engine running again. -/
  hostResume : Bool
deriving DecidableEq, Repr

/-- The defaults of R13. The spec gives `TRACE_ENABLE` no default; off is a DESIGN CHOICE (log entry 3). -/
def Config.default : Config where
  traceEnable := false
  hexUpper := true
  esDepth := none
  csDepth := none
  hostResume := false

end Sys2Proof
end

