-- ==== Sys2Proof/Syntax.lean ====
section
/-! DEFINITION. Instructions as data: the operand tags of 30_encoding.md R86, the decoded Instruction of R91,
and one constructor for each of the 13 opcode classes of R83. -/

namespace Sys2Proof

/-- The four general registers (10_state.md R21). There is no R0. -/
inductive Reg where
  | r1
  | r2
  | r3
  | r4
deriving DecidableEq, Repr

/-- An Operand tag, "a tag identifying which of {R1, R2, R3, R4, IP, CT, MA}" a field refers to (10_state.md R34). -/
inductive Operand where
  /-- One of the tags R1 to R4. -/
  | reg (r : Reg)
  /-- The instruction pointer. -/
  | ip
  /-- The immediate of the operand's own side. -/
  | ct
  /-- The 16-bit word in memory at the immediate of the operand's own side. -/
  | ma
deriving DecidableEq, Repr

/-- The mode number of a tag: its index in "the fixed order {R1, R2, R3, R4, IP, CT, MA}" (R86). -/
def Operand.mode : Operand → Nat
  | .reg .r1 => 0
  | .reg .r2 => 1
  | .reg .r3 => 2
  | .reg .r4 => 3
  | .ip => 4
  | .ct => 5
  | .ma => 6

/-- What every Instruction carries beside its opcode class (R91): the raw operand-combination byte, the two
operand tags classified from it, and the two immediates. Execution uses `tgt`, `src`, `timm`, `simm`; `comb` is
kept so that encoding gives the word back (R82, D9; log entry 16). -/
structure Fields where
  comb : Byte
  tgt : Operand
  src : Operand
  timm : Word
  simm : Word
deriving DecidableEq, Repr

/-- A decoded Instruction (R91), one constructor for each of the 13 opcode classes of R83. The class fixes the
opcode byte but for NOP, which is every unassigned byte (R84) and so keeps the raw one (log entry 15). -/
inductive Instr where
  | halt (f : Fields)
  | add (f : Fields)
  | sub (f : Fields)
  | mul (f : Fields)
  | div (f : Fields)
  | mov (f : Fields)
  | ld (f : Fields)
  | uld (f : Fields)
  | bz (f : Fields)
  | swi (f : Fields)
  | call (f : Fields)
  | ret (f : Fields)
  | nop (opbyte : Byte) (f : Fields)
deriving DecidableEq, Repr

/-- The fields of an Instruction of any class. -/
def Instr.fields : Instr → Fields
  | .halt f => f
  | .add f => f
  | .sub f => f
  | .mul f => f
  | .div f => f
  | .mov f => f
  | .ld f => f
  | .uld f => f
  | .bz f => f
  | .swi f => f
  | .call f => f
  | .ret f => f
  | .nop _ f => f

end Sys2Proof
end

