-- ==== Sys2Proof/WellFormed.lean ====
section
/-! DEFINITION. Which terms are Instructions the decoder can hand to the engine: the operand tags are those the
table of 30_encoding.md R88 gives the combination byte, and the class NOP has an unassigned opcode byte (R83). -/

namespace Sys2Proof

/-- The tags agree with the combination byte by R88: for 0 to 48 the byte is the table's entry in the target's row
and the source's column; for 49 to 255 the target is R1 and the source is the column of the remainder (R87). -/
def Fields.wf (f : Fields) : Bool :=
  if f.comb.toNat ≤ 48 then f.comb.toNat == 7 * f.tgt.mode + f.src.mode
  else f.tgt == .reg .r1 && f.comb.toNat % 7 == f.src.mode

/-- The opcode byte kept by NOP is one that is assigned to no other class: 0x0C to 0xFF (R83). -/
def nopByteOk (opbyte : Byte) : Bool := 0x0C ≤ opbyte.toNat

/-- A well-formed Instruction. -/
def Instr.wf : Instr → Bool
  | .halt f => f.wf
  | .add f => f.wf
  | .sub f => f.wf
  | .mul f => f.wf
  | .div f => f.wf
  | .mov f => f.wf
  | .ld f => f.wf
  | .uld f => f.wf
  | .bz f => f.wf
  | .swi f => f.wf
  | .call f => f.wf
  | .ret f => f.wf
  | .nop opbyte f => nopByteOk opbyte && f.wf

end Sys2Proof
end

