-- ==== Sys2Proof/Decode.lean ====
section
/-! DEFINITION. The instruction_decoder and the classification half of the operand_resolver (30_encoding.md), and
after them the encoder of R82. -/

namespace Sys2Proof

/-! ## Field extraction (R81) -/

/-- Byte 0 of the word, `word[47:40]`. -/
def wordOpbyte (w : InstrWord) : Byte := w.extractLsb' 40 8

/-- Byte 1 of the word, `word[39:32]`. -/
def wordComb (w : InstrWord) : Byte := w.extractLsb' 32 8

/-- Bytes 2 and 3, the target-immediate, `word[31:16]`. -/
def wordTimm (w : InstrWord) : Word := w.extractLsb' 16 16

/-- Bytes 4 and 5, the source-immediate, `word[15:0]`. -/
def wordSimm (w : InstrWord) : Word := w.extractLsb' 0 16

/-! ## The operand_resolver (R85 to R87) -/

/-- `tag(m)`: the fixed order of R86, and R1 for a mode number of 7 or more (R87; C1, D10, log entry 14). -/
def tagOfMode : Nat → Operand
  | 0 => .reg .r1
  | 1 => .reg .r2
  | 2 => .reg .r3
  | 3 => .reg .r4
  | 4 => .ip
  | 5 => .ct
  | 6 => .ma
  | _ => .reg .r1

/-- `target-mode = comb div 7` (R85), classified. -/
def resolveTarget (comb : Byte) : Operand := tagOfMode (comb.toNat / 7)

/-- `source-mode = comb mod 7` (R85), classified. -/
def resolveSource (comb : Byte) : Operand := tagOfMode (comb.toNat % 7)

/-! ## The decoder (R91) -/

/-- The Instruction's fields from the raw ones. -/
def makeFields (comb : Byte) (timm simm : Word) : Fields where
  comb := comb
  tgt := resolveTarget comb
  src := resolveSource comb
  timm := timm
  simm := simm

/-- The opcode class of an opcode byte (R83); every byte not named is NOP (R84). -/
def classify (opbyte : Byte) (f : Fields) : Instr :=
  match opbyte.toNat with
  | 0x00 => .halt f
  | 0x01 => .add f
  | 0x02 => .sub f
  | 0x03 => .mul f
  | 0x04 => .div f
  | 0x05 => .mov f
  | 0x06 => .ld f
  | 0x07 => .uld f
  | 0x08 => .bz f
  | 0x09 => .swi f
  | 0x0A => .call f
  | 0x0B => .ret f
  | _ => .nop opbyte f

/-- `decode(word)`: "pure and total: every 48-bit input produces a valid Instruction, never an error" (R91). -/
def decode (w : InstrWord) : Instr :=
  classify (wordOpbyte w) (makeFields (wordComb w) (wordTimm w) (wordSimm w))

/-- The word of six bytes, the byte at the lowest address most significant (R52, R81). -/
def joinBytes (b0 b1 b2 b3 b4 b5 : Byte) : InstrWord := b0 ++ b1 ++ b2 ++ b3 ++ b4 ++ b5

/-- The one way bytes can fail to be an instruction: there are fewer than six. No six bytes are refused (R92). -/
inductive DecodeReject where
  /-- Fewer than six bytes were given. Raised by `decodeBytes` only; a step's fetch always has six or faults. Safe. -/
  | truncated
deriving DecidableEq, Repr

/-- Decode from a list of bytes, lowest address first; also gives the rest of the list. -/
def decodeBytes : List Byte → Except DecodeReject (Instr × List Byte)
  | b0 :: b1 :: b2 :: b3 :: b4 :: b5 :: rest => .ok (decode (joinBytes b0 b1 b2 b3 b4 b5), rest)
  | _ => .error .truncated

/-! ## The encoder (R82) -/

/-- The raw opcode byte of an Instruction (R83; NOP keeps its own, R91). -/
def Instr.opbyte : Instr → Byte
  | .halt _ => 0x00
  | .add _ => 0x01
  | .sub _ => 0x02
  | .mul _ => 0x03
  | .div _ => 0x04
  | .mov _ => 0x05
  | .ld _ => 0x06
  | .uld _ => 0x07
  | .bz _ => 0x08
  | .swi _ => 0x09
  | .call _ => 0x0A
  | .ret _ => 0x0B
  | .nop b _ => b

/-- `encode(opbyte, comb, timm, simm) = opbyte ++ comb ++ timm ++ simm` (R82). -/
def encodeRaw (opbyte comb : Byte) (timm simm : Word) : InstrWord := opbyte ++ comb ++ timm ++ simm

/-- The word of an Instruction, from its four raw fields. -/
def encode (i : Instr) : InstrWord := encodeRaw i.opbyte i.fields.comb i.fields.timm i.fields.simm

/-- The six bytes of a word, byte 0 first (R15, R80). -/
def wordBytes (w : InstrWord) : List Byte :=
  [w.extractLsb' 40 8, w.extractLsb' 32 8, w.extractLsb' 24 8, w.extractLsb' 16 8, w.extractLsb' 8 8,
    w.extractLsb' 0 8]

/-- The six bytes of an Instruction as memory holds them, lowest address first (R54). -/
def encodeBytes (i : Instr) : List Byte := wordBytes (encode i)

/-- The combination byte an encoder gives a pair of operand kinds, `target-mode * 7 + source-mode` (R80, R88). -/
def combOf (tgt src : Operand) : Byte := BitVec.ofNat 8 (tgt.mode * 7 + src.mode)

/-- The fields an assembler writes for two operand kinds and two immediates (R88). -/
def assemble (tgt src : Operand) (timm simm : Word) : Fields where
  comb := combOf tgt src
  tgt := tgt
  src := src
  timm := timm
  simm := simm

/-- The canonical NOP of R96: opcode byte 0xFF, all else zero (D8). -/
def canonicalNop : Instr := .nop 0xFF (assemble (.reg .r1) (.reg .r1) 0 0)

/-- The 48-bit word that `spec/opcode_table.json` numbers `w` in `nbits` bits: the table's one format `W48` is one
word, bit 0 its least significant and the opcode byte its bits 47:40 (R80; log entry 27). -/
def tableWord (nbits w : Nat) : InstrWord := BitVec.ofNat 48 (w % 2 ^ nbits)

/-- The instruction the decoder reads from a word numbered as `spec/opcode_table.json` numbers it, laid out in
bytes as memory holds them. -/
def decodeTableWord (nbits w : Nat) : Option Instr :=
  if nbits ≤ 48 then
    match decodeBytes (wordBytes (tableWord nbits w)) with
    | .ok (i, _) => some i
    | .error _ => none
  else none

end Sys2Proof
end

