-- ==== Sys2Proof/Machine/State.lean ====
section
/-! DEFINITION. The machine's state (10_state.md R20 to R41) as plain data, the reasons a step can stop, and the
state after reset. -/

namespace Sys2Proof.Machine

open Sys2Proof

/-- The seven fault kinds, in the source's order of listing (60_exceptions.md R240). -/
inductive FaultKind where
  /-- MOV whose target is CT or MA (R241). -/
  | invalidMoveTarget
  /-- ULD whose target is CT (R242). -/
  | invalidUnloadTarget
  /-- ULD with an empty evaluation stack (R243). -/
  | stackUnderflow
  /-- RET with an empty call stack (R244). -/
  | callStackEmpty
  /-- SWI whose target-immediate is neither 0 nor 1 (R245). -/
  | unimplementedInterrupt
  /-- DIV whose source value is 0 (R246). -/
  | divisionByZero
  /-- A multi-byte access that would pass the end of memory (R247). -/
  | memoryFault
deriving DecidableEq, Repr

/-- The engine's state-machine state: `Running`, `Halted`, `Faulted(error)` (R31). -/
inductive Status where
  | running
  | halted
  | faulted (k : FaultKind)
deriving DecidableEq, Repr

/-- Why no step is enabled (40_execution_cycle.md R119, D27; log entry 2). A fault an instruction raises is not
here: it is a next state whose `status` is `faulted` (R118, R251; log entry 1). -/
inductive Fault where
  /-- Answered by `step` alone, when `status` is Halted: "the engine takes no step". Safe: the run has ended. -/
  | halted
  /-- Answered by `step` alone, when `status` is Faulted(k): the same. Safe: the run has ended. -/
  | faulted (k : FaultKind)
deriving DecidableEq, Repr

/-- Why a step is refused. -/
inductive Refusal where
  /-- Raised by `exec` for an instruction with no meaning yet; no arm answers it in this model. Safe. -/
  | notModelled (mnemonic : String)
  /-- Raised by ADD, SUB, MUL, DIV and LD when `ES_DEPTH` is finite and the evaluation stack is at it: "a model must
  refuse that step" (R30, D14; log entry 4). Never raised at the default capacity. Safe. -/
  | evaluationStackFull
  /-- Raised by CALL when `CS_DEPTH` is finite and the call stack is at it (R30, D14; log entry 4). Never raised at
  the default capacity. Safe. -/
  | callStackFull
deriving DecidableEq, Repr

/-- Memory: (address, byte) pairs, addresses strictly rising, no pair with the byte an unlisted address reads as
(20_memory.md R50). `Memory.wf` says this form holds. -/
abbrev Memory := List Host.Cell

/-- What an address no pair lists reads as: "memory contents outside the loaded program are zero-initialized" (R37). -/
def Memory.unlisted : Byte := 0

/-- One line of rendered text, without its line break (R224). -/
abbrev Line := List Char

/-- The state of the machine: the six items of R20, the two output sequences of R35, and the static parameters of
R13 (`cfg`, log entry 3). -/
structure State where
  /-- The parameters of R13; no step changes them. -/
  cfg : Config
  /-- `MEM` (R50). -/
  mem : Memory
  /-- R1 (R21). -/
  x1 : Word
  /-- R2 (R21). -/
  x2 : Word
  /-- R3 (R21). -/
  x3 : Word
  /-- R4 (R21). -/
  x4 : Word
  /-- The instruction pointer (R23). -/
  pc : Word
  /-- The evaluation stack, last element the top (R16, R28). -/
  es : List Word
  /-- The call stack, last element the top (R16, R29). -/
  cs : List Word
  /-- The engine status (R31). -/
  status : Status
  /-- The Unicode scalar values SWI has emitted, oldest first (R205). -/
  console : List Char
  /-- The trace lines, oldest first (R224). -/
  trace : List Line
deriving DecidableEq, Repr

/-- The machine right after reset (R37 to R41, R280), with no program image placed (log entry 9). -/
def State.reset : State where
  cfg := Config.default
  mem := []
  x1 := 0
  x2 := 0
  x3 := 0
  x4 := 0
  pc := 0
  es := []
  cs := []
  status := .running
  console := []
  trace := []

end Sys2Proof.Machine
end

