-- ==== Sys2Proof/Machine/Ops.lean ====
section
/-! DEFINITION. The named operations over memory, registers and stacks (20_memory.md, 10_state.md), and the one
place where a dispatch ends: advancing `pc`, stopping, or taking a fault (40_execution_cycle.md R116 to R118). -/

namespace Sys2Proof.Machine

open Sys2Proof

/-! ## Memory, byte by byte (R50) -/

/-- The canonical form above a lower bound on addresses: strictly rising, within the 65536 addresses, and no pair
with the byte an unlisted address reads as. -/
def Memory.wfFrom : Nat → Memory → Bool
  | _, [] => true
  | lo, (a, b) :: rest =>
    decide (lo ≤ a) && decide (a < 65536) && decide (b ≠ Memory.unlisted) && Memory.wfFrom (a + 1) rest

/-- The canonical form of memory. -/
def Memory.wf (m : Memory) : Bool := Memory.wfFrom 0 m

/-- The byte at an address. -/
def Memory.read : Memory → Nat → Byte
  | [], _ => Memory.unlisted
  | (a, b) :: rest, x => if x = a then b else Memory.read rest x

/-- A pair in front of a memory, left out where the byte is the one an unlisted address reads as. -/
def Memory.cons (x : Nat) (v : Byte) (m : Memory) : Memory :=
  if v = Memory.unlisted then m else (x, v) :: m

/-- Store one byte, keeping the canonical form. -/
def Memory.write : Memory → Nat → Byte → Memory
  | [], x, v => Memory.cons x v []
  | (a, b) :: rest, x, v =>
    if x < a then Memory.cons x v ((a, b) :: rest)
    else if x = a then Memory.cons x v rest
    else (a, b) :: Memory.write rest x v

/-- Store a list of bytes, the first at the address given. -/
def Memory.writeBytes (m : Memory) (x : Nat) : List Byte → Memory
  | [] => m
  | b :: bs => Memory.writeBytes (m.write x b) (x + 1) bs

/-- The memory that holds a list of bytes from an address on and nothing else (R66). -/
def Memory.ofImage (x : Nat) : List Byte → Memory
  | [] => []
  | b :: bs => Memory.cons x b (Memory.ofImage (x + 1) bs)

/-! ## Memory accesses (R52, R53) -/

/-- `MemRead(addr, 2)`: big-endian, and MemoryFault exactly when the second byte would lie past 0xFFFF (R52, R57). -/
def memRead16 (m : Memory) (addr : Word) : Except FaultKind Word :=
  if addr.toNat + 1 > 65535 then .error .memoryFault
  else .ok (m.read addr.toNat ++ m.read (addr.toNat + 1))

/-- `MemRead(addr, 6)`: the instruction fetch's read (R52, R57). -/
def memRead48 (m : Memory) (addr : Word) : Except FaultKind InstrWord :=
  if addr.toNat + 5 > 65535 then .error .memoryFault
  else
    .ok (joinBytes (m.read addr.toNat) (m.read (addr.toNat + 1)) (m.read (addr.toNat + 2)) (m.read (addr.toNat + 3))
      (m.read (addr.toNat + 4)) (m.read (addr.toNat + 5)))

/-- `MemWrite(addr, 2, v)`: high byte first; at 0xFFFF MemoryFault, and no byte is written (R53, D28; log entry 20). -/
def memWrite16 (m : Memory) (addr v : Word) : Except FaultKind Memory :=
  if addr.toNat + 1 > 65535 then .error .memoryFault
  else .ok ((m.write addr.toNat (v.extractLsb' 8 8)).write (addr.toNat + 1) (v.extractLsb' 0 8))

/-! ## Registers (R21) -/

/-- `x[i]`: reading a register never faults (R21). -/
def State.reg (s : State) : Reg → Word
  | .r1 => s.x1
  | .r2 => s.x2
  | .r3 => s.x3
  | .r4 => s.x4

/-- `x[i] <- v`. -/
def State.setReg (s : State) (r : Reg) (v : Word) : State :=
  match r with
  | .r1 => { s with x1 := v }
  | .r2 => { s with x2 := v }
  | .r3 => { s with x3 := v }
  | .r4 => { s with x4 := v }

/-! ## Stacks (R28 to R30) -/

/-- Whether a stack of a length may take one more value at a capacity (R30). -/
def hasRoom (capacity : Option Nat) (length : Nat) : Bool :=
  match capacity with
  | none => true
  | some d => decide (length < d)

/-- `push(ES, v)`; `none` at a finite capacity that is reached (R28, R30). -/
def State.pushES (s : State) (v : Word) : Option State :=
  if hasRoom s.cfg.esDepth s.es.length then some { s with es := s.es ++ [v] } else none

/-- `push(CS, v)`; `none` at a finite capacity that is reached (R29, R30). -/
def State.pushCS (s : State) (v : Word) : Option State :=
  if hasRoom s.cfg.csDepth s.cs.length then some { s with cs := s.cs ++ [v] } else none

/-- `pop(ES)` with its test: the top and the state without it; `none` on the empty stack (R28). -/
def State.popES (s : State) : Option (Word × State) :=
  match s.es.getLast? with
  | none => none
  | some v => some (v, { s with es := s.es.dropLast })

/-- `pop(CS)` with its test (R29). -/
def State.popCS (s : State) : Option (Word × State) :=
  match s.cs.getLast? with
  | none => none
  | some v => some (v, { s with cs := s.cs.dropLast })

/-! ## Console and trace (R35) -/

/-- `emit_console` of a sequence of items, in order (R17, R205). -/
def State.emitConsole (s : State) (items : List Char) : State := { s with console := s.console ++ items }

/-! ## The end of a dispatch (R116 to R118) -/

/-- `(pc + 6) mod 2^16`: the address of the next sequential instruction (R25, D4; log entry 10). -/
def nextSequential (pc : Word) : Word := pc + 6#16

/-- How an instruction's dispatch ends: the three kinds of R116, a raised fault (R118), or the refusal of R30. The
state is the one the dispatch left. -/
inductive Dispatched where
  | sequential (s : State)
  | jump (t : Word) (s : State)
  | stop (s : State)
  | raise (k : FaultKind) (s : State)
  | refuse (r : Refusal)
deriving DecidableEq, Repr

/-- Taking a fault, the one exception entry of the machine: `status <- Faulted(k)`; `pc` is not advanced, nothing is
rolled back, nothing is saved (R118, R251). -/
def State.takeFault (s : State) (k : FaultKind) : State := { s with status := .faulted k }

/-- Advance `pc` and set `status` by the way the dispatch ended (R116, R117, R118). HALT leaves `pc` (D5; log
entry 11). -/
def finish : Dispatched → Host.Outcome State Fault Refusal
  | .sequential s => .next { s with pc := nextSequential s.pc }
  | .jump t s => .next { s with pc := t }
  | .stop s => .next { s with status := .halted }
  | .raise k s => .next (s.takeFault k)
  | .refuse r => .refused r

/-- Go on with a value, or raise the fault that took its place, leaving the state as it is (R118). -/
def withValue {α : Type} (r : Except FaultKind α) (s : State) (next : α → Dispatched) : Dispatched :=
  match r with
  | .ok v => next v
  | .error k => .raise k s

/-- Push on the evaluation stack and go on to the next instruction; at a full finite stack, refuse (R30). -/
def pushAndAdvance (s : State) (v : Word) : Dispatched :=
  match s.pushES v with
  | some s' => .sequential s'
  | none => .refuse .evaluationStackFull

/-! ## Codes an implementation with bits would use (D12, D26; log entry 25) -/

/-- The spec's own 3-bit fault code (R240). -/
def FaultKind.code : FaultKind → BitVec 3
  | .invalidMoveTarget => 1
  | .invalidUnloadTarget => 2
  | .stackUnderflow => 3
  | .callStackEmpty => 4
  | .unimplementedInterrupt => 5
  | .divisionByZero => 6
  | .memoryFault => 7

/-- The spec's own 2-bit state and 3-bit fault code; 0 is no fault (R31). -/
def Status.code : Status → BitVec 2 × BitVec 3
  | .running => (0, 0)
  | .halted => (1, 0)
  | .faulted k => (2, k.code)

end Sys2Proof.Machine
end

