-- ==== Sys2Proof/Machine/Operands.lean ====
section
/-! DEFINITION. The operand accessors (40_execution_cycle.md R114, R115). -/

namespace Sys2Proof.Machine

open Sys2Proof

/-- `read_operand`: "one pure function keyed on (operand, immediate, machine-state-snapshot)" (R114). IP reads the
address of the instruction being executed (R122). Only MA can fault. -/
def readOperand (mode : Operand) (imm : Word) (s : State) : Except FaultKind Word :=
  match mode with
  | .reg r => .ok (s.reg r)
  | .ip => .ok s.pc
  | .ct => .ok imm
  | .ma => memRead16 s.mem imm

/-- The target side's value. -/
def readTarget (f : Fields) (s : State) : Except FaultKind Word := readOperand f.tgt f.timm s

/-- The source side's value. -/
def readSource (f : Fields) (s : State) : Except FaultKind Word := readOperand f.src f.simm s

/-- MOV's destinations: a register or `pc`; CT and MA are not assignable (R115, R160). -/
def moveInto (f : Fields) (v : Word) (s : State) : Except FaultKind State :=
  match f.tgt with
  | .reg r => .ok (s.setReg r v)
  | .ip => .ok { s with pc := v }
  | .ct => .error .invalidMoveTarget
  | .ma => .error .invalidMoveTarget

/-- ULD's destinations: a register, `pc`, or the memory word at the target-immediate; CT is not assignable (R115,
R162). -/
def unloadInto (f : Fields) (v : Word) (s : State) : Except FaultKind State :=
  match f.tgt with
  | .reg r => .ok (s.setReg r v)
  | .ip => .ok { s with pc := v }
  | .ct => .error .invalidUnloadTarget
  | .ma =>
    match memWrite16 s.mem f.timm v with
    | .ok m => .ok { s with mem := m }
    | .error k => .error k

end Sys2Proof.Machine
end

