-- ==== Sys2Proof/Machine/Flags.lean ====
section
/-! DEFINITION. The machine has no flags (10_state.md R27): arithmetic records no carry, overflow, zero or sign, and
the one condition is BZ's test of its own operand. -/

namespace Sys2Proof.Machine

open Sys2Proof

/-- BZ's condition: all 16 bits are compared with zero (R27, 43_control_transfer.md R180). -/
def testsZero (v : Word) : Bool := v == 0#16

end Sys2Proof.Machine
end

