-- ==== Sys2Proof/Machine/Arithmetic.lean ====
section
/-! DEFINITION. The arithmetic_unit and ADD, SUB, MUL, DIV (41_arithmetic.md). -/

namespace Sys2Proof.Machine

open Sys2Proof

/-- The unit's four operations (00_scope.md R6). -/
inductive ArithOp where
  | add
  | sub
  | mul
  | div
deriving DecidableEq, Repr

/-- `AU(aop, a, b)` with `a` the target and `b` the source value, on unsigned integers, narrowed to 16 bits at the
end (R140). Division is unsigned, target by source (D7; log entry 13). -/
def arithUnit (op : ArithOp) (a b : Word) : Except FaultKind Word :=
  match op with
  | .add => .ok (BitVec.ofNat 16 (a.toNat + b.toNat))
  | .sub => .ok (BitVec.ofNat 16 (a.toNat + 65536 - b.toNat))
  | .mul => .ok (BitVec.ofNat 16 (a.toNat * b.toNat))
  | .div => if b.toNat = 0 then .error .divisionByZero else .ok (BitVec.ofNat 16 (a.toNat / b.toNat))

/-- What the four instructions share: read target, read source, compute, push (R124, R141 to R144; D20, log entry
17). -/
def dispatchArith (op : ArithOp) (f : Fields) (s : State) : Dispatched :=
  withValue (readTarget f s) s fun a =>
    withValue (readSource f s) s fun b =>
      withValue (arithUnit op a b) s fun r => pushAndAdvance s r

/-- ADD (R141). -/
def execAdd (f : Fields) (s : State) : Host.Outcome State Fault Refusal := finish (dispatchArith .add f s)

/-- SUB (R142). -/
def execSub (f : Fields) (s : State) : Host.Outcome State Fault Refusal := finish (dispatchArith .sub f s)

/-- MUL (R143). -/
def execMul (f : Fields) (s : State) : Host.Outcome State Fault Refusal := finish (dispatchArith .mul f s)

/-- DIV (R144). -/
def execDiv (f : Fields) (s : State) : Host.Outcome State Fault Refusal := finish (dispatchArith .div f s)

end Sys2Proof.Machine
end

