-- ==== Sys2Proof/Machine/ControlTransfer.lean ====
section
/-! DEFINITION. BZ, CALL and RET (43_control_transfer.md). -/

namespace Sys2Proof.Machine

open Sys2Proof

/-- BZ: both operands are resolved before the test (R180; D22, log entry 17). -/
def execBz (f : Fields) (s : State) : Host.Outcome State Fault Refusal :=
  finish
    (withValue (readTarget f s) s fun t =>
      withValue (readSource f s) s fun a => if testsZero t then .jump a s else .sequential s)

/-- CALL: the operand is resolved before the return address is pushed (R181). -/
def execCall (f : Fields) (s : State) : Host.Outcome State Fault Refusal :=
  finish
    (withValue (readTarget f s) s fun t =>
      match s.pushCS (nextSequential s.pc) with
      | some s' => .jump t s'
      | none => .refuse .callStackFull)

/-- RET: pop the call stack and continue at the popped address; no field of the word is used (R182, R90). -/
def execRet (_ : Fields) (s : State) : Host.Outcome State Fault Refusal :=
  finish
    (match s.popCS with
    | none => .raise .callStackEmpty s
    | some (r, s') => .jump r s')

end Sys2Proof.Machine
end

