-- ==== Sys2Proof/Machine/DataMovement.lean ====
section
/-! DEFINITION. MOV, LD and ULD (42_data_movement.md). -/

namespace Sys2Proof.Machine

open Sys2Proof

/-- MOV: the source is read first, then the target mode is examined (R160, D20). A write to `pc` is still followed
by the advance (D6; log entry 12). -/
def execMov (f : Fields) (s : State) : Host.Outcome State Fault Refusal :=
  finish (withValue (readSource f s) s fun v => withValue (moveInto f v s) s fun s' => .sequential s')

/-- LD: push the target operand's value (R161). -/
def execLd (f : Fields) (s : State) : Host.Outcome State Fault Refusal :=
  finish (withValue (readTarget f s) s fun v => pushAndAdvance s v)

/-- ULD: the pop comes first and is kept when the store or the target check faults (R162, C5). A write to `pc` is
still followed by the advance (D6; log entry 12). -/
def execUld (f : Fields) (s : State) : Host.Outcome State Fault Refusal :=
  finish
    (match s.popES with
    | none => .raise .stackUnderflow s
    | some (v, popped) => withValue (unloadInto f v popped) popped fun s' => .sequential s')

end Sys2Proof.Machine
end

