-- ==== Sys2Proof/Machine/Text.lean ====
section
/-! DEFINITION. Numbers as text: the decimal print of SWI (44_system.md R204) and the hexadecimal rendering of the
state_renderer (45_state_renderer.md R222). -/

namespace Sys2Proof.Machine

open Sys2Proof

/-- The digits of a number in a base, most significant first, at most as many as the fuel. -/
def digitsFuel (base : Nat) : Nat → Nat → List Nat
  | 0, _ => []
  | fuel + 1, n => if n < base then [n] else digitsFuel base fuel (n / base) ++ [n % base]

/-- The digits of a number in a base of 2 or more, most significant first, no leading zeros; 0 is the one digit 0.
A number has fewer digits than itself plus one, so the fuel never runs out. -/
def digits (base n : Nat) : List Nat := digitsFuel base (n + 1) n

/-- The character of a decimal digit, U+0030 to U+0039 (R204). -/
def decimalChar (d : Nat) : Char := Char.ofNat (0x30 + d)

/-- `decimal(v)`: base ten, no leading zeros, sign or padding (R204). -/
def decimalText (v : Word) : List Char := (digits 10 v.toNat).map decimalChar

/-- The character of a hexadecimal digit, A to F in the case `HEX_UPPER` selects (R222). -/
def hexChar (upper : Bool) (d : Nat) : Char :=
  if d < 10 then Char.ofNat (0x30 + d) else if upper then Char.ofNat (0x41 + (d - 10)) else Char.ofNat (0x61 + (d - 10))

/-- `0x` and the hexadecimal digits without leading zeros (R222), for any natural number: the dump also shows the
stacks' depths this way (R226). -/
def hexNat (upper : Bool) (n : Nat) : Line := ['0', 'x'] ++ (digits 16 n).map (hexChar upper)

/-- `hex(v)` of a 16-bit value (R222). -/
def hexWord (upper : Bool) (v : Word) : Line := hexNat upper v.toNat

/-- Whether a 16-bit value is a Unicode scalar value: not a surrogate (R203, G1; log entry 19). -/
def isScalar (v : Word) : Bool := decide (v.toNat ≤ 0xD7FF) || decide (0xE000 ≤ v.toNat)

/-- What SWI code 0 appends: the character of a scalar value, and nothing for a surrogate (R201, R203). -/
def characterText (v : Word) : List Char := if isScalar v then [Char.ofNat v.toNat] else []

end Sys2Proof.Machine
end

