-- ==== Sys2Proof/Machine/System.lean ====
section
/-! DEFINITION. HALT, SWI and NOP (44_system.md). -/

namespace Sys2Proof.Machine

open Sys2Proof

/-- HALT: "no state change; signals Stop" (R200). -/
def execHalt (_ : Fields) (s : State) : Host.Outcome State Fault Refusal := finish (.stop s)

/-- SWI: the raw target-immediate is the function code, whatever the modes say, and R1 is what is printed (R201,
D21; log entry 18). -/
def execSwi (f : Fields) (s : State) : Host.Outcome State Fault Refusal :=
  finish
    (match f.timm.toNat with
    | 0 => .sequential (s.emitConsole (characterText s.x1))
    | 1 => .sequential (s.emitConsole (decimalText s.x1))
    | _ => .raise .unimplementedInterrupt s)

/-- NOP, and every unassigned opcode byte: only `pc` advances (R202). -/
def execNop (_ : Byte) (_ : Fields) (s : State) : Host.Outcome State Fault Refusal := finish (.sequential s)

end Sys2Proof.Machine
end

