-- ==== Sys2Proof/Machine/Dispatch.lean ====
section
/-! DEFINITION. Dispatch on the opcode class (40_execution_cycle.md R123): one arm per constructor. -/

namespace Sys2Proof.Machine

open Sys2Proof

def exec (i : Instr) (s : State) : Host.Outcome State Fault Refusal :=
  match i with
  | .halt f => Sys2Proof.Machine.execHalt f s
  | .add f => Sys2Proof.Machine.execAdd f s
  | .sub f => Sys2Proof.Machine.execSub f s
  | .mul f => Sys2Proof.Machine.execMul f s
  | .div f => Sys2Proof.Machine.execDiv f s
  | .mov f => Sys2Proof.Machine.execMov f s
  | .ld f => Sys2Proof.Machine.execLd f s
  | .uld f => Sys2Proof.Machine.execUld f s
  | .bz f => Sys2Proof.Machine.execBz f s
  | .swi f => Sys2Proof.Machine.execSwi f s
  | .call f => Sys2Proof.Machine.execCall f s
  | .ret f => Sys2Proof.Machine.execRet f s
  | .nop opbyte f => Sys2Proof.Machine.execNop opbyte f s

end Sys2Proof.Machine
end

