-- ==== Sys2Proof/Machine/Renderer.lean ====
section
/-! DEFINITION. The state_renderer (45_state_renderer.md): the trace line and the machine-state dump. The texts are
the spec's own layout (D17 to D19; log entries 21, 22). -/

namespace Sys2Proof.Machine

open Sys2Proof

/-- One operand from its tag and the immediate of its side (R221). -/
def renderOperand (upper : Bool) (tag : Operand) (imm : Word) : Line :=
  match tag with
  | .reg .r1 => ['R', '1']
  | .reg .r2 => ['R', '2']
  | .reg .r3 => ['R', '3']
  | .reg .r4 => ['R', '4']
  | .ip => ['I', 'P']
  | .ct => '#' :: hexWord upper imm
  | .ma => hexWord upper imm

/-- The mnemonic is the class name in capitals (R223). -/
def mnemonic : Instr → Line
  | .halt _ => ['H', 'A', 'L', 'T']
  | .add _ => ['A', 'D', 'D']
  | .sub _ => ['S', 'U', 'B']
  | .mul _ => ['M', 'U', 'L']
  | .div _ => ['D', 'I', 'V']
  | .mov _ => ['M', 'O', 'V']
  | .ld _ => ['L', 'D']
  | .uld _ => ['U', 'L', 'D']
  | .bz _ => ['B', 'Z']
  | .swi _ => ['S', 'W', 'I']
  | .call _ => ['C', 'A', 'L', 'L']
  | .ret _ => ['R', 'E', 'T']
  | .nop _ _ => ['N', 'O', 'P']

/-- The target alone, after a space. -/
def renderTarget (upper : Bool) (f : Fields) : Line := ' ' :: renderOperand upper f.tgt f.timm

/-- Target and source, after a space, one comma between them and no space (R223). -/
def renderBoth (upper : Bool) (f : Fields) : Line := renderTarget upper f ++ ',' :: renderOperand upper f.src f.simm

/-- The operands shown: only the sides the opcode uses (R223, D18). -/
def renderOperands (upper : Bool) : Instr → Line
  | .halt _ => []
  | .add f => renderBoth upper f
  | .sub f => renderBoth upper f
  | .mul f => renderBoth upper f
  | .div f => renderBoth upper f
  | .mov f => renderBoth upper f
  | .ld f => renderTarget upper f
  | .uld f => renderTarget upper f
  | .bz f => renderBoth upper f
  | .swi f => renderTarget upper f
  | .call f => renderTarget upper f
  | .ret _ => []
  | .nop _ _ => []

/-- `render_trace(pc, insn)`: address, colon, space, mnemonic, operands (R224). -/
def renderTrace (upper : Bool) (pc : Word) (i : Instr) : Line :=
  hexWord upper pc ++ [':', ' '] ++ mnemonic i ++ renderOperands upper i

/-- The tracing hook: where `TRACE_ENABLE` is set, the line of the instruction at `pc` is appended before its
dispatch (R121, R225). -/
def State.emitTrace (s : State) (i : Instr) : State :=
  if s.cfg.traceEnable then { s with trace := s.trace ++ [renderTrace s.cfg.hexUpper s.pc i] } else s

/-- A stack's line of the dump: its top, `-` where it is empty, and its depth (R226). -/
def renderStack (upper : Bool) (name : Line) (stack : List Word) : Line :=
  name ++ [':', ' ', 't', 'o', 'p', '=']
    ++ (match stack.getLast? with
      | some v => hexWord upper v
      | none => ['-'])
    ++ [' ', 'd', 'e', 'p', 't', 'h', '='] ++ hexNat upper stack.length

/-- A register's entry of the dump (R226). -/
def renderCell (upper : Bool) (name : Line) (v : Word) : Line := name ++ '=' :: hexWord upper v

/-- The machine-state dump's four lines (R226). The host asks for it; no step emits it (D31). -/
def renderDump (s : State) : List Line :=
  let u := s.cfg.hexUpper
  [ renderStack u ['C', 'S'] s.cs,
    renderStack u ['E', 'S'] s.es,
    renderCell u ['R', '1'] s.x1 ++ ' ' :: renderCell u ['R', '2'] s.x2 ++ ' ' :: renderCell u ['R', '3'] s.x3
      ++ ' ' :: renderCell u ['R', '4'] s.x4,
    renderCell u ['I', 'P'] s.pc ]

end Sys2Proof.Machine
end

