-- ==== Sys2Proof/Machine/HostInterface.lean ====
section
/-! DEFINITION. What the host does to the machine outside a step (70_reset_and_hazards.md R280, R288), and the
fetch and its helpers that a step calls. -/

namespace Sys2Proof.Machine

open Sys2Proof

/-- The start state of a run: the image at address 0 upward, zero elsewhere, all else as after reset, under the
configuration chosen (R66, R280). An image longer than memory is refused (D15; log entry 24). -/
def State.start (cfg : Config) (image : List Byte) : Option State :=
  if image.length ≤ 65536 then some { State.reset with cfg := cfg, mem := Memory.ofImage 0 image } else none

/-- The host's one action after a fault, present only where `HOST_RESUME` is set: `status <- Running` and nothing
else (60_exceptions.md R253, D11; log entry 5). A Halted engine is never resumed (R260). -/
def State.resume (s : State) : Option State :=
  match s.status with
  | .faulted _ => if s.cfg.hostResume then some { s with status := .running } else none
  | .running => none
  | .halted => none

/-- What the host sees of a step (40_execution_cycle.md R117). -/
inductive StepOutcome where
  | continue
  | stop
  | fault (k : FaultKind)
deriving DecidableEq, Repr

/-- The outcome of the step that left a state (R117). -/
def stepOutcome (s : State) : StepOutcome :=
  match s.status with
  | .running => .continue
  | .halted => .stop
  | .faulted k => .fault k

/-- Fetch and decode: the six bytes at `pc` as they are now (R112, R113, R64). -/
def fetchInstr (s : State) : Except FaultKind Instr :=
  match memRead48 s.mem s.pc with
  | .ok w => .ok (decode w)
  | .error k => .error k

/-- The state with a word's six bytes at `pc`. Where six bytes do not fit there the fetch faults whatever memory
holds, and nothing is stored (R112; log entry 30). -/
def State.placeWord (s : State) (w : InstrWord) : State :=
  if s.pc.toNat + 5 ≤ 65535 then { s with mem := s.mem.writeBytes s.pc.toNat (wordBytes w) } else s

end Sys2Proof.Machine
end

