-- ==== Sys2Proof/Machine/Step.lean ====
section
/-! DEFINITION. One step, `execute_next` (40_execution_cycle.md R111). -/

namespace Sys2Proof.Machine

open Sys2Proof

/-- `execute_next`: taken only when Running (R119); fetch and decode (R112, R113), trace (R121), dispatch, advance and
outcome (`exec`, R116 to R118). A fetch that faults changes nothing but `status` (R112). -/
def step (s : State) : Host.Outcome State Fault Refusal :=
  match s.status with
  | .halted => .fault .halted
  | .faulted k => .fault (.faulted k)
  | .running =>
    match fetchInstr s with
    | .error k => .next (s.takeFault k)
    | .ok i => exec i (s.emitTrace i)

/-- `s` with the instruction that `spec/opcode_table.json` numbers `w` stored where `step` fetches next: at `pc`. -/
def State.withFetchWord (s : State) (nbits w : Nat) : State := s.placeWord (tableWord nbits w)

end Sys2Proof.Machine
end

