-- ==== Sys2Proof/Safety.lean ====
section
/-! DEFINITION. The terms claims use: the invariant of the machine, runs, which fields and operands an instruction
uses, which faults it may raise, and views of a state that leave out what execution never reads. -/

namespace Sys2Proof.Machine

open Sys2Proof

/-! ## The invariant -/

/-- Whether a stack's length is within a capacity (10_state.md R30). -/
def withinCapacity (capacity : Option Nat) (length : Nat) : Bool :=
  match capacity with
  | none => true
  | some d => decide (length ≤ d)

/-- What holds of every state a run reaches: memory is in its canonical form, so it holds bytes only at the 65536
addresses there are (R36, R50), and neither stack is longer than its capacity (R30). -/
def State.wf (s : State) : Bool :=
  s.mem.wf && withinCapacity s.cfg.esDepth s.es.length && withinCapacity s.cfg.csDepth s.cs.length

/-! ## Runs -/

/-- One state follows another by a number of steps (R120). -/
inductive Reaches : State → State → Prop where
  | refl (s : State) : Reaches s s
  | tail {s t u : State} (h : Reaches s t) (hs : step t = .next u) : Reaches s u

/-- A safe run: no state it reaches is Faulted; "a normal, successful end is Halted" (70_reset_and_hazards.md R284). -/
def FaultFree (s : State) : Prop := ∀ t, Reaches s t → ∀ k, t.status ≠ .faulted k

/-- The state after `n` steps, if the call stack holds at least `d` addresses before each of them and after the
last: the steps of a subroutine that does not return past its own caller (43_control_transfer.md R183). -/
def stepsAbove (d : Nat) : Nat → State → Option State
  | 0, s => if d ≤ s.cs.length then some s else none
  | n + 1, s =>
    if d ≤ s.cs.length then
      match step s with
      | .next t => stepsAbove d n t
      | .fault _ => none
      | .refused _ => none
    else none

end Sys2Proof.Machine

namespace Sys2Proof

/-! ## What an instruction uses (30_encoding.md R90) -/

/-- Whether the target operand's value is read. -/
def Instr.readsTarget : Instr → Bool
  | .halt _ => false
  | .add _ => true
  | .sub _ => true
  | .mul _ => true
  | .div _ => true
  | .mov _ => false
  | .ld _ => true
  | .uld _ => false
  | .bz _ => true
  | .swi _ => false
  | .call _ => true
  | .ret _ => false
  | .nop _ _ => false

/-- Whether the source operand's value is read. -/
def Instr.readsSource : Instr → Bool
  | .halt _ => false
  | .add _ => true
  | .sub _ => true
  | .mul _ => true
  | .div _ => true
  | .mov _ => true
  | .ld _ => false
  | .uld _ => false
  | .bz _ => true
  | .swi _ => false
  | .call _ => false
  | .ret _ => false
  | .nop _ _ => false

/-- An immediate, cleared where its side's mode does not use it: only CT and MA do (R89, R90). -/
def usedImm (mode : Operand) (imm : Word) : Word :=
  match mode with
  | .reg _ => 0
  | .ip => 0
  | .ct => imm
  | .ma => imm

/-- Fields with nothing in them that the hardware could use. -/
def Fields.blank : Fields where
  comb := 0
  tgt := .reg .r1
  src := .reg .r1
  timm := 0
  simm := 0

/-- The target side alone. -/
def Fields.targetOnly (f : Fields) : Fields := { Fields.blank with tgt := f.tgt, timm := usedImm f.tgt f.timm }

/-- Both sides. -/
def Fields.bothSides (f : Fields) : Fields :=
  { f.targetOnly with src := f.src, simm := usedImm f.src f.simm }

/-- The Instruction with every field cleared that R90's table marks ignored for its opcode; the raw combination
byte and NOP's raw opcode byte are cleared in all, since execution uses only the classifications (R91). -/
def Instr.usedPart : Instr → Instr
  | .halt _ => .halt Fields.blank
  | .add f => .add f.bothSides
  | .sub f => .sub f.bothSides
  | .mul f => .mul f.bothSides
  | .div f => .div f.bothSides
  | .mov f => .mov { f.bothSides with timm := 0 }
  | .ld f => .ld f.targetOnly
  | .uld f => .uld { f.targetOnly with timm := if f.tgt = .ma then f.timm else 0 }
  | .bz f => .bz f.bothSides
  | .swi f => .swi { Fields.blank with timm := f.timm }
  | .call f => .call f.targetOnly
  | .ret _ => .ret Fields.blank
  | .nop _ _ => .nop 0xFF Fields.blank

/-- The faults an instruction can raise once fetched (60_exceptions.md R263). -/
def Instr.mayRaise : Instr → List Machine.FaultKind
  | .halt _ => []
  | .add _ => [.memoryFault]
  | .sub _ => [.memoryFault]
  | .mul _ => [.memoryFault]
  | .div _ => [.memoryFault, .divisionByZero]
  | .mov _ => [.memoryFault, .invalidMoveTarget]
  | .ld _ => [.memoryFault]
  | .uld _ => [.stackUnderflow, .invalidUnloadTarget, .memoryFault]
  | .bz _ => [.memoryFault]
  | .swi _ => [.unimplementedInterrupt]
  | .call _ => [.memoryFault]
  | .ret _ => [.callStackEmpty]
  | .nop _ _ => []

end Sys2Proof

namespace Sys2Proof.Machine

open Sys2Proof

/-! ## Views of a step's answer -/

/-- A step's answer with its next state changed by a function; a fault or refusal as it is. -/
def mapNext (g : State → State) : Host.Outcome State Fault Refusal → Host.Outcome State Fault Refusal
  | .next s => .next (g s)
  | .fault r => .fault r
  | .refused r => .refused r

/-- The state without what it has emitted (10_state.md R35). -/
def State.withoutOutputs (s : State) : State := { s with console := [], trace := [] }

/-- The state with outputs put in front of its own. -/
def State.afterOutputs (console : List Char) (trace : List Line) (s : State) : State :=
  { s with console := console ++ s.console, trace := trace ++ s.trace }

/-- The state under another choice of the two parameters of the renderer (R222, R227). -/
def State.withRendering (enable upper : Bool) (s : State) : State :=
  { s with cfg := { s.cfg with traceEnable := enable, hexUpper := upper } }

/-- The state without its trace and without the parameters of the renderer. -/
def State.withoutTrace (s : State) : State := { s.withRendering false true with trace := [] }

end Sys2Proof.Machine
end

