-- ==== Sys2Proof/Certificates/Slice0/Obligations.lean ====
section
/-! DEFINITION. What the provers are asked to settle. A statement that rests on a decision of the spec (D<n> of
92_eei_decisions.md) names it: that clause is the spec's own choice, not its source's. Every statement that gives a
next state by `pc := s.pc + 6` rests on D4 (the addition wraps modulo 2^16). -/

open Sys2Proof Sys2Proof.Machine

/-! ## Encoding -/

/-- Words written out by hand from R80, R83 and R88 (K1 to K13 of 95_test_vectors.md) decode to what they stand for.
The combination byte 0xFF (255 = 36 * 7 + 3) is D10's fallback. -/
def Obligations.WrittenWordsDecode : Prop :=
  decode 0x000000000000 = .halt ⟨0x00, .reg .r1, .reg .r1, 0, 0⟩ ∧
  decode 0x013002000202 = .add ⟨0x30, .ma, .ma, 0x0200, 0x0202⟩ ∧
  decode 0x05050000002A = .mov ⟨0x05, .reg .r1, .ct, 0, 0x002A⟩ ∧
  decode 0x05FF00000000 = .mov ⟨0xFF, .reg .r1, .reg .r4, 0, 0⟩ ∧
  decode 0x072A02000000 = .uld ⟨0x2A, .ma, .reg .r1, 0x0200, 0⟩ ∧
  decode 0x08220000FFFE = .bz ⟨0x22, .ip, .ma, 0, 0xFFFE⟩ ∧
  decode 0x092300010000 = .swi ⟨0x23, .ct, .reg .r1, 1, 0⟩ ∧
  decode 0x0B0000000000 = .ret ⟨0x00, .reg .r1, .reg .r1, 0, 0⟩ ∧
  decode 0xABCD12345678 = .nop 0xAB ⟨0xCD, .reg .r1, .reg .r3, 0x1234, 0x5678⟩

/-- R83: the opcode byte alone selects the class; every byte from 0x0C on is NOP. -/
def Obligations.OpcodeByteSelectsClass : Prop :=
  ∀ (w : InstrWord) (b : Byte) (f : Fields), b = wordOpbyte w →
    f = makeFields (wordComb w) (wordTimm w) (wordSimm w) →
    (b = 0x00 → decode w = .halt f) ∧ (b = 0x01 → decode w = .add f) ∧ (b = 0x02 → decode w = .sub f) ∧
    (b = 0x03 → decode w = .mul f) ∧ (b = 0x04 → decode w = .div f) ∧ (b = 0x05 → decode w = .mov f) ∧
    (b = 0x06 → decode w = .ld f) ∧ (b = 0x07 → decode w = .uld f) ∧ (b = 0x08 → decode w = .bz f) ∧
    (b = 0x09 → decode w = .swi f) ∧ (b = 0x0A → decode w = .call f) ∧ (b = 0x0B → decode w = .ret f) ∧
    (0x0C ≤ b.toNat → decode w = .nop b f)

/-- R85: the combination byte is split by radix 7; the quotient is 0 to 36 and the remainder 0 to 6. Where the quotient
is a mode number (R86), both sides carry the tag of that number. -/
def Obligations.CombinationByteSplitsByRadixSeven : Prop :=
  ∀ comb : Byte, comb.toNat / 7 ≤ 36 ∧ comb.toNat % 7 ≤ 6 ∧ (resolveSource comb).mode = comb.toNat % 7 ∧
    (comb.toNat / 7 ≤ 6 → (resolveTarget comb).mode = comb.toNat / 7)

/-- The fallback of R87 (the spec's decision D10): a combination byte of 49 to 255 has target R1. -/
def Obligations.LargeCombinationByteTargetsR1 : Prop :=
  ∀ comb : Byte, 49 ≤ comb.toNat → resolveTarget comb = .reg .r1 ∧ (resolveSource comb).mode = comb.toNat % 7

/-- The bijection of R88 on 0 to 48: "`target_mode*7+source_mode` recovers the same pair used to construct it". -/
def Obligations.CombinationBytePairsAreABijection : Prop :=
  (∀ t u : Operand, resolveTarget (combOf t u) = t ∧ resolveSource (combOf t u) = u ∧ (combOf t u).toNat ≤ 48) ∧
  (∀ comb : Byte, comb.toNat ≤ 48 → combOf (resolveTarget comb) (resolveSource comb) = comb)

/-- R82: extraction of the raw fields and `encode` are inverse bijections; so decoding and then encoding gives any
48-bit word back; and it does not hold of the classifications alone: two different words have the same class, tags
and immediates. -/
def Obligations.RawFieldsAndWordsAreInverse : Prop :=
  (∀ w : InstrWord, encodeRaw (wordOpbyte w) (wordComb w) (wordTimm w) (wordSimm w) = w) ∧
  (∀ (o c : Byte) (t u : Word), wordOpbyte (encodeRaw o c t u) = o ∧ wordComb (encodeRaw o c t u) = c ∧
    wordTimm (encodeRaw o c t u) = t ∧ wordSimm (encodeRaw o c t u) = u) ∧
  (∀ w : InstrWord, encode (decode w) = w) ∧
  (∃ (w w' : InstrWord) (c c' : Byte) (t u : Operand) (a b : Word), w ≠ w' ∧
    decode w = .mov ⟨c, t, u, a, b⟩ ∧ decode w' = .mov ⟨c', t, u, a, b⟩)

/-- The decoder answers only well-formed Instructions: the tags agree with R88's table, and NOP's byte is unassigned. -/
def Obligations.DecodedInstructionsAreWellFormed : Prop := ∀ w : InstrWord, (decode w).wf = true

/-- Decode and encode agree on every well-formed Instruction, with every operand at every value the encoding admits. -/
def Obligations.DecodeOfEncodeIsIdentity : Prop :=
  ∀ i : Instr, i.wf = true → decode (encode i) = i ∧ decodeBytes (encodeBytes i) = .ok (i, [])

/-! ## Reset and load -/

/-- The state after reset: memory zero (R37, the source's), and the spec's decisions D1 (`pc`), D2 (registers) and D3
(stacks, status, outputs); `TRACE_ENABLE` off is the model's choice (log entry 3). -/
def Obligations.ResetState : Prop :=
  (∀ a, State.reset.mem.read a = 0) ∧ State.reset.pc = 0 ∧ (∀ r, State.reset.reg r = 0) ∧ State.reset.es = [] ∧
    State.reset.cs = [] ∧ State.reset.status = .running ∧ State.reset.console = [] ∧ State.reset.trace = [] ∧
    State.reset.cfg = ⟨false, true, none, none, false⟩

/-- R37: after reset and load, memory holds the image from address 0 and zero above it, and every word of it can be
written. -/
def Obligations.LoadPlacesImageAndZeroes : Prop :=
  ∀ (cfg : Config) (image : List Byte), image.length ≤ 65536 →
    ∃ s, State.start cfg image = some s ∧ (∀ (a : Nat) (b : Byte), image[a]? = some b → s.mem.read a = b) ∧
      (∀ a, image.length ≤ a → s.mem.read a = 0) ∧
      (∀ a v : Word, a ≠ 0xFFFF → ∃ m, memWrite16 s.mem a v = .ok m ∧ memRead16 m a = .ok v)

/-- All but memory and the configuration is at its reset value after a load (R280; D1 to D3); an image longer than
memory is refused (the spec's decision D15). -/
def Obligations.LoadLeavesTheRestAtReset : Prop :=
  ∀ (cfg : Config) (image : List Byte), image.length ≤ 65536 ∧
      (∃ m, State.start cfg image = some { State.reset with cfg := cfg, mem := m }) ∨
    65536 < image.length ∧ State.start cfg image = none

/-! ## Operands and memory -/

/-- R114: the value of an operand read, by its mode; only MA faults, when its address is 0xFFFF. -/
def Obligations.OperandReadByMode : Prop :=
  ∀ (imm : Word) (s : State),
    readOperand (.reg .r1) imm s = .ok s.x1 ∧ readOperand (.reg .r2) imm s = .ok s.x2 ∧
    readOperand (.reg .r3) imm s = .ok s.x3 ∧ readOperand (.reg .r4) imm s = .ok s.x4 ∧
    readOperand .ip imm s = .ok s.pc ∧ readOperand .ct imm s = .ok imm ∧
    (imm = 0xFFFF → readOperand .ma imm s = .error .memoryFault) ∧
    (imm ≠ 0xFFFF → ∃ v : Word, readOperand .ma imm s = .ok v ∧
      v.toNat = (s.mem.read imm.toNat).toNat * 256 + (s.mem.read (imm.toNat + 1)).toNat)

/-- A 16-bit store in canonical memory: big-endian, read back whole, no other byte changes, the form is kept; at 0xFFFF
it faults, and no memory results (R53; no partial store is the spec's decision D28). -/
def Obligations.StoreThenLoadReturnsValue : Prop :=
  (∀ (m : Memory) (a v : Word), m.wf = true → a ≠ 0xFFFF →
    ∃ m', memWrite16 m a v = .ok m' ∧ m'.wf = true ∧ memRead16 m' a = .ok v ∧
      m'.read a.toNat = v.extractLsb' 8 8 ∧ m'.read (a.toNat + 1) = v.extractLsb' 0 8 ∧
      ∀ x, x ≠ a.toNat → x ≠ a.toNat + 1 → m'.read x = m.read x) ∧
  (∀ (m : Memory) (v : Word), memWrite16 m 0xFFFF v = .error .memoryFault)

/-- Canonical memories are equal exactly when they hold the same 65536 bytes: the model's form adds nothing to R50. -/
def Obligations.CanonicalMemoryIsItsBytes : Prop :=
  ∀ m m' : Memory, m.wf = true → m'.wf = true → (∀ a, a < 65536 → m.read a = m'.read a) → m = m'

/-! ## Arithmetic -/

/-- ADD completes: the sum modulo 2^16 is pushed and only `pc` changes beside (R141; D4). -/
def Obligations.AddPushesSum : Prop :=
  ∀ (f : Fields) (s : State) (a b : Word), readTarget f s = .ok a → readSource f s = .ok b →
    hasRoom s.cfg.esDepth s.es.length = true →
    ∃ r : Word, r.toNat = (a.toNat + b.toNat) % 65536 ∧
      exec (.add f) s = .next { s with es := s.es ++ [r], pc := s.pc + 6 }

/-- SUB completes: target minus source modulo 2^16 is pushed (R142; D4). -/
def Obligations.SubPushesDifference : Prop :=
  ∀ (f : Fields) (s : State) (a b : Word), readTarget f s = .ok a → readSource f s = .ok b →
    hasRoom s.cfg.esDepth s.es.length = true →
    ∃ r : Word, (r.toNat : Int) = ((a.toNat : Int) - (b.toNat : Int)) % 65536 ∧
      exec (.sub f) s = .next { s with es := s.es ++ [r], pc := s.pc + 6 }

/-- MUL completes: the low 16 bits of the product are pushed (R143; D4). -/
def Obligations.MulPushesProduct : Prop :=
  ∀ (f : Fields) (s : State) (a b : Word), readTarget f s = .ok a → readSource f s = .ok b →
    hasRoom s.cfg.esDepth s.es.length = true →
    ∃ r : Word, r.toNat = (a.toNat * b.toNat) % 65536 ∧
      exec (.mul f) s = .next { s with es := s.es ++ [r], pc := s.pc + 6 }

/-- DIV with a source value other than 0 completes: the unsigned floor quotient is pushed (R144; unsigned is D7, the
advance D4). -/
def Obligations.DivPushesQuotient : Prop :=
  ∀ (f : Fields) (s : State) (a b : Word), readTarget f s = .ok a → readSource f s = .ok b → b ≠ 0 →
    hasRoom s.cfg.esDepth s.es.length = true →
    ∃ r : Word, r.toNat = a.toNat / b.toNat ∧
      exec (.div f) s = .next { s with es := s.es ++ [r], pc := s.pc + 6 }

/-- R246: DIV whose source value is 0 raises DivisionByZero for any target value and pushes nothing; ADD, SUB and MUL
cannot raise it. -/
def Obligations.DivisionByZeroIsDivsAlone : Prop :=
  (∀ (f : Fields) (s : State) (a : Word), readTarget f s = .ok a → readSource f s = .ok 0 →
    exec (.div f) s = .next { s with status := .faulted .divisionByZero }) ∧
  (∀ (f : Fields) (s t : State), s.status = .running →
    exec (.add f) s = .next t ∨ exec (.sub f) s = .next t ∨ exec (.mul f) s = .next t →
    t.status ≠ .faulted .divisionByZero)

/-! ## Data movement -/

/-- MOV completes: into a register, that register alone takes the source value; into IP, the next fetch is at the value
plus 6 (R160; the advance after a write to IP is D6, its wrap D4). -/
def Obligations.MovWritesItsTarget : Prop :=
  ∀ (f : Fields) (s : State) (v : Word), readSource f s = .ok v →
    (∀ r, f.tgt = .reg r → ∃ t : State, exec (.mov f) s = .next t ∧ (∀ q, t.reg q = if q = r then v else s.reg q) ∧
      t = { s with x1 := t.x1, x2 := t.x2, x3 := t.x3, x4 := t.x4, pc := s.pc + 6 }) ∧
    (f.tgt = .ip → exec (.mov f) s = .next { s with pc := v + 6 })

/-- MOV into CT or MA raises InvalidMoveTarget and changes nothing else; a source that faults is reported first, whatever
the target, and nothing is written (R160, R241; the order is D20). -/
def Obligations.MovRefusesConstantAndMemoryTargets : Prop :=
  ∀ (f : Fields) (s : State),
    (f.tgt = .ct ∨ f.tgt = .ma → ∀ v, readSource f s = .ok v →
      exec (.mov f) s = .next { s with status := .faulted .invalidMoveTarget }) ∧
    (∀ k, readSource f s = .error k → exec (.mov f) s = .next { s with status := .faulted k })

/-- LD completes: the target operand's value is pushed (R161; D4). -/
def Obligations.LdPushesTarget : Prop :=
  ∀ (f : Fields) (s : State) (v : Word), readTarget f s = .ok v → hasRoom s.cfg.esDepth s.es.length = true →
    exec (.ld f) s = .next { s with es := s.es ++ [v], pc := s.pc + 6 }

/-- ULD completes: the top of the stack goes to a register, to IP (plus 6, D6), or big-endian to the memory word at the
target-immediate, and no other byte changes (R162; D4). -/
def Obligations.UldStoresPoppedValue : Prop :=
  ∀ (f : Fields) (s : State) (l : List Word) (v : Word), s.mem.wf = true → s.es = l ++ [v] →
    (∀ r, f.tgt = .reg r → ∃ t : State, exec (.uld f) s = .next t ∧ (∀ q, t.reg q = if q = r then v else s.reg q) ∧
      t = { s with x1 := t.x1, x2 := t.x2, x3 := t.x3, x4 := t.x4, es := l, pc := s.pc + 6 }) ∧
    (f.tgt = .ip → exec (.uld f) s = .next { s with es := l, pc := v + 6 }) ∧
    (f.tgt = .ma → f.timm ≠ 0xFFFF → ∃ t : State, exec (.uld f) s = .next t ∧
      t = { s with es := l, mem := t.mem, pc := s.pc + 6 } ∧ t.mem.read f.timm.toNat = v.extractLsb' 8 8 ∧
      t.mem.read (f.timm.toNat + 1) = v.extractLsb' 0 8 ∧
      ∀ x, x ≠ f.timm.toNat → x ≠ f.timm.toNat + 1 → t.mem.read x = s.mem.read x)

/-- R243: ULD with an empty evaluation stack raises StackUnderflow before anything else; no other instruction pops the
evaluation stack, and no other raises it. -/
def Obligations.StackUnderflowIsUldOnEmptyStack : Prop :=
  (∀ (f : Fields) (s : State), s.es = [] → exec (.uld f) s = .next { s with status := .faulted .stackUnderflow }) ∧
  (∀ (i : Instr) (s t : State), s.status = .running → exec i s = .next t → t.status = .faulted .stackUnderflow →
    ∃ f, i = .uld f ∧ s.es = []) ∧
  (∀ (i : Instr) (s t : State), exec i s = .next t → t.es.length < s.es.length → ∃ f, i = .uld f)

/-- R242: ULD into CT raises InvalidUnloadTarget after the pop; the popped value is lost. -/
def Obligations.UldIntoConstantLosesValue : Prop :=
  ∀ (f : Fields) (s : State) (l : List Word) (v : Word), s.es = l ++ [v] → f.tgt = .ct →
    exec (.uld f) s = .next { s with es := l, status := .faulted .invalidUnloadTarget }

/-- ULD into the memory word at 0xFFFF raises MemoryFault after the pop, and no byte is written (R162; D28). -/
def Obligations.UldPastMemoryLosesValue : Prop :=
  ∀ (f : Fields) (s : State) (l : List Word) (v : Word), s.es = l ++ [v] → f.tgt = .ma → f.timm = 0xFFFF →
    exec (.uld f) s = .next { s with es := l, status := .faulted .memoryFault }

/-! ## Control transfer -/

/-- BZ completes: a zero target value continues exactly at the source value, another falls through (R180; D4); both
operands are read first (D22). -/
def Obligations.BzBranchesOnZero : Prop :=
  ∀ (f : Fields) (s : State) (t a : Word), readTarget f s = .ok t → readSource f s = .ok a →
    exec (.bz f) s = .next { s with pc := if t = 0 then a else s.pc + 6 }

/-- CALL completes: the address of the next instruction is pushed on the call stack, and the next fetch is at the
target value (R181; the return address wraps by D4). -/
def Obligations.CallPushesReturnAddress : Prop :=
  ∀ (f : Fields) (s : State) (t : Word), readTarget f s = .ok t → hasRoom s.cfg.csDepth s.cs.length = true →
    exec (.call f) s = .next { s with cs := s.cs ++ [s.pc + 6], pc := t }

/-- R182: RET pops the call stack and continues at the popped address exactly; on an empty call stack it raises
CallStackEmpty and changes nothing else; every field of the word is ignored. -/
def Obligations.RetPopsCallStack : Prop :=
  ∀ (f : Fields) (s : State),
    (∀ (l : List Word) (r : Word), s.cs = l ++ [r] → exec (.ret f) s = .next { s with cs := l, pc := r }) ∧
    (s.cs = [] → exec (.ret f) s = .next { s with status := .faulted .callStackEmpty })

/-- Call and return symmetry (R183): after a CALL at B, any run in which the call stack never falls below its depth after
the CALL, and a RET at that depth, `pc` is B + 6 (wrapping, D4) and the call stack is as before the CALL. -/
def Obligations.CallReturnSymmetry : Prop :=
  ∀ (s t u : State) (f g : Fields) (n : Nat), fetchInstr s = .ok (.call f) → step s = .next t → t.status = .running →
    stepsAbove t.cs.length n t = some u → u.cs.length = t.cs.length → u.status = .running →
    fetchInstr u = .ok (.ret g) →
    ∃ v, step u = .next v ∧ v.pc = s.pc + 6 ∧ v.cs = s.cs ∧ v.status = .running

/-! ## System -/

/-- HALT completes: the status becomes Halted and nothing else changes (R200; that `pc` stays is D5). -/
def Obligations.HaltStops : Prop := ∀ (f : Fields) (s : State), exec (.halt f) s = .next { s with status := .halted }

/-- NOP completes: only `pc` advances (R202; D4). -/
def Obligations.NopAdvances : Prop :=
  ∀ (b : Byte) (f : Fields) (s : State), exec (.nop b f) s = .next { s with pc := s.pc + 6 }

/-- SWI code 0 completes: a scalar value in R1 is appended to the console as one character, a surrogate prints nothing
(R201, R203; the raw function code is D21, control characters D29, the advance D4; the ranges are G1, general
knowledge). -/
def Obligations.SwiPrintsCharacter : Prop :=
  ∀ (f : Fields) (s : State), f.timm = 0 →
    (s.x1.toNat ≤ 0xD7FF ∨ 0xE000 ≤ s.x1.toNat → ∃ c : Char, c.toNat = s.x1.toNat ∧
      exec (.swi f) s = .next { s with console := s.console ++ [c], pc := s.pc + 6 }) ∧
    (0xD7FF < s.x1.toNat ∧ s.x1.toNat < 0xE000 → exec (.swi f) s = .next { s with pc := s.pc + 6 })

/-- SWI code 1 completes: the characters appended spell R1 in base ten, most significant digit first, with no leading
zero (R201, R204; the format is D16, the raw code D21, the advance D4; the digits' code points are G2). -/
def Obligations.SwiPrintsDecimal : Prop :=
  ∀ (f : Fields) (s : State), f.timm = 1 →
    ∃ text : List Char, exec (.swi f) s = .next { s with console := s.console ++ text, pc := s.pc + 6 } ∧
      (∀ c ∈ text, 0x30 ≤ c.toNat ∧ c.toNat ≤ 0x39) ∧
      text.foldl (fun n c => 10 * n + (c.toNat - 0x30)) 0 = s.x1.toNat ∧ text ≠ [] ∧
      (text.head? = some '0' → text = ['0'])

/-- R245: SWI with a target-immediate of 0x0002 to 0xFFFF raises UnimplementedInterrupt; nothing is printed. -/
def Obligations.UnknownSwiCodeFaults : Prop :=
  ∀ (f : Fields) (s : State), 2 ≤ f.timm.toNat →
    exec (.swi f) s = .next { s with status := .faulted .unimplementedInterrupt }

/-! ## Faults -/

/-- The order of operand faults (R250; D20, D22): a target that faults ends ADD, SUB, MUL, DIV, BZ, LD and CALL there; a
source that faults ends MOV, which reads no target, and after a target that does not fault ADD, SUB, MUL, DIV and BZ.
Nothing is pushed or written, `pc` stays. -/
def Obligations.OperandFaultsEndTheInstruction : Prop :=
  ∀ (f : Fields) (s : State) (k : FaultKind),
    (readTarget f s = .error k → ∀ i ∈ [Instr.add f, .sub f, .mul f, .div f, .bz f, .ld f, .call f],
      exec i s = .next { s with status := .faulted k }) ∧
    (readSource f s = .error k → exec (.mov f) s = .next { s with status := .faulted k } ∧
      ∀ a, readTarget f s = .ok a → ∀ i ∈ [Instr.add f, .sub f, .mul f, .div f, .bz f],
        exec i s = .next { s with status := .faulted k })

/-- The three situations of R247, and no other, raise MemoryFault (the order against other faults is D20, BZ's source D22,
the store D28). -/
def Obligations.MemoryFaultExactlyWhen : Prop :=
  ∀ s t : State, step s = .next t →
    (t.status = .faulted .memoryFault ↔
      0xFFFB ≤ s.pc.toNat ∨
      ∃ i, fetchInstr s = .ok i ∧
        ((i.readsTarget = true ∧ i.fields.tgt = .ma ∧ i.fields.timm = 0xFFFF) ∨
          (i.readsSource = true ∧ i.fields.src = .ma ∧ i.fields.simm = 0xFFFF) ∨
          (∃ f, i = .uld f ∧ f.tgt = .ma ∧ f.timm = 0xFFFF ∧ s.es ≠ [])))

/-- An instruction raises only the faults of R263's table, and each of those it does raise in some state. -/
def Obligations.FaultsByInstruction : Prop :=
  (∀ (i : Instr) (s t : State) (k : FaultKind), s.status = .running → exec i s = .next t → t.status = .faulted k →
    k ∈ i.mayRaise) ∧
  (∀ (i : Instr) (k : FaultKind), k ∈ i.mayRaise →
    ∃ (j : Instr) (s t : State), j.opbyte = i.opbyte ∧ s.status = .running ∧ exec j s = .next t ∧
      t.status = .faulted k)

/-- R118: a fault ends the step where it is raised. `pc` stays at the faulting instruction; all else is as it was, but
for the trace line already emitted and, for ULD alone, the pop made before the store or the target check. -/
def Obligations.FaultIsPrecise : Prop :=
  ∀ (s t : State) (k : FaultKind), step s = .next t → t.status = .faulted k →
    t = { s with status := .faulted k, es := t.es, trace := t.trace } ∧
    ((fetchInstr s = .error k ∧ t.es = s.es ∧ t.trace = s.trace) ∨
      (∃ i, fetchInstr s = .ok i ∧ t.trace = (s.emitTrace i).trace ∧
        (t.es = s.es ∨ ∃ f v, i = .uld f ∧ s.es = t.es ++ [v] ∧ (k = .invalidUnloadTarget ∨ k = .memoryFault))))

/-- The host's resume (R253, the spec's decision D11): it exists only where `HOST_RESUME` is set and the engine is
Faulted, and it sets the status alone. -/
def Obligations.ResumeOnlyAfterFault : Prop :=
  ∀ s : State,
    (∀ k, s.status = .faulted k → s.cfg.hostResume = true → s.resume = some { s with status := .running }) ∧
    (s.status = .running ∨ s.status = .halted ∨ s.cfg.hostResume = false → s.resume = none)

/-- After a resume the same instruction faults again the same way, unless the fault was one of a ULD that had popped
(R253, D11). -/
def Obligations.ResumedFaultRecurs : Prop :=
  ∀ (s t : State) (k : FaultKind), step s = .next t → t.status = .faulted k → t.es = s.es → s.cfg.hostResume = true →
    ∃ r u, t.resume = some r ∧ step r = .next u ∧ u = { t with trace := u.trace }

/-- A push on a stack at a finite capacity is refused, by name: no step (R30, the spec's decision D14). -/
def Obligations.FullStackRefusesPush : Prop :=
  ∀ (f : Fields) (s : State) (d : Nat),
    (s.cfg.esDepth = some d → d ≤ s.es.length →
      (∀ v, readTarget f s = .ok v → exec (.ld f) s = .refused .evaluationStackFull) ∧
      (∀ a b, readTarget f s = .ok a → readSource f s = .ok b →
        exec (.add f) s = .refused .evaluationStackFull ∧ exec (.sub f) s = .refused .evaluationStackFull ∧
        exec (.mul f) s = .refused .evaluationStackFull ∧
        (b ≠ 0 → exec (.div f) s = .refused .evaluationStackFull))) ∧
    (s.cfg.csDepth = some d → d ≤ s.cs.length →
      ∀ v, readTarget f s = .ok v → exec (.call f) s = .refused .callStackFull)

/-! ## The whole machine -/

/-- A step at a running state whose six bytes at `pc` decode to an Instruction is `exec` of it, after its trace line
where tracing is enabled (R111, R121). -/
def Obligations.StepRunsDecodedInstruction : Prop :=
  ∀ (s : State) (i : Instr), s.status = .running → s.pc.toNat ≤ 0xFFFA →
    decodeBytes [s.mem.read s.pc.toNat, s.mem.read (s.pc.toNat + 1), s.mem.read (s.pc.toNat + 2),
      s.mem.read (s.pc.toNat + 3), s.mem.read (s.pc.toNat + 4), s.mem.read (s.pc.toNat + 5)] = .ok (i, []) →
    step s = exec i
      (if s.cfg.traceEnable then { s with trace := s.trace ++ [renderTrace s.cfg.hexUpper s.pc i] } else s)

/-- R112: the fetch reads the six bytes at `pc` as memory is now; it raises MemoryFault exactly when `pc` is 0xFFFB or
more, and then nothing changes but the status. -/
def Obligations.FetchReadsSixBytesOrFaults : Prop :=
  ∀ s : State,
    (0xFFFB ≤ s.pc.toNat → fetchInstr s = .error .memoryFault ∧
      (s.status = .running → step s = .next { s with status := .faulted .memoryFault })) ∧
    (s.pc.toNat ≤ 0xFFFA → fetchInstr s = .ok (decode
      (joinBytes (s.mem.read s.pc.toNat) (s.mem.read (s.pc.toNat + 1)) (s.mem.read (s.pc.toNat + 2))
        (s.mem.read (s.pc.toNat + 3)) (s.mem.read (s.pc.toNat + 4)) (s.mem.read (s.pc.toNat + 5)))))

/-- When Halted or Faulted, no step is enabled (R119, the spec's decision D27): `step` answers a stop. -/
def Obligations.StoppedEngineTakesNoStep : Prop :=
  ∀ s : State, (s.status = .halted → step s = .fault .halted) ∧
    (∀ k, s.status = .faulted k → step s = .fault (.faulted k)) ∧ (∀ t, step s = .next t → s.status = .running)

/-- With both stacks unbounded (the default, R30) every running state has a next state: no word in any state is without
an outcome (R262). -/
def Obligations.RunningEngineAlwaysSteps : Prop :=
  ∀ s : State, s.status = .running → s.cfg.esDepth = none → s.cfg.csDepth = none → ∃ t, step s = .next t

/-- Only HALT halts (R110, R116): a step ends Halted exactly when the fetched Instruction is HALT. -/
def Obligations.OnlyHaltHalts : Prop :=
  ∀ s t : State, step s = .next t → (t.status = .halted ↔ ∃ f, fetchInstr s = .ok (.halt f))

/-- The register file is "mutable only by MOV and ULD" (R22): a step that changes a register ran one of them, with that
register its target, and went on. -/
def Obligations.OnlyMovAndUldWriteRegisters : Prop :=
  ∀ (s t : State) (r : Reg), step s = .next t → t.reg r ≠ s.reg r →
    t.status = .running ∧ ∃ f, f.tgt = .reg r ∧ (fetchInstr s = .ok (.mov f) ∨ fetchInstr s = .ok (.uld f))

/-- ULD with target MA is "the only store" (R51), and it changes only the two bytes at its target-immediate. -/
def Obligations.OnlyUldStoresToMemory : Prop :=
  ∀ (s t : State) (a : Nat), s.mem.wf = true → step s = .next t → t.mem.read a ≠ s.mem.read a →
    ∃ f, fetchInstr s = .ok (.uld f) ∧ f.tgt = .ma ∧ (a = f.timm.toNat ∨ a = f.timm.toNat + 1)

/-- The evaluation stack is pushed by ADD, SUB, MUL, DIV and LD, popped by ULD, one value each, and touched by nothing
else (R28); the call stack is pushed by CALL and popped by RET (R29). -/
def Obligations.StacksMoveByOneValue : Prop :=
  ∀ s t : State, step s = .next t →
    (t.es = s.es ∨
      (∃ v f, t.es = s.es ++ [v] ∧
        ∃ i ∈ [Instr.add f, .sub f, .mul f, .div f, .ld f], fetchInstr s = .ok i) ∨
      (∃ v f, s.es = t.es ++ [v] ∧ fetchInstr s = .ok (.uld f))) ∧
    (t.cs = s.cs ∨ (∃ f, t.cs = s.cs ++ [s.pc + 6] ∧ fetchInstr s = .ok (.call f)) ∨
      (∃ f, s.cs = t.cs ++ [t.pc] ∧ fetchInstr s = .ok (.ret f)))

/-- A store is seen by every later fetch, that of the very next instruction too (R64). -/
def Obligations.StoreIsSeenByFetch : Prop :=
  ∀ (f : Fields) (s : State) (l : List Word) (v : Word) (p : Word) (byte : Nat → Byte), s.mem.wf = true →
    s.es = l ++ [v] → f.tgt = .ma → f.timm ≠ 0xFFFF → p.toNat ≤ 0xFFFA →
    (∀ x, byte x = if x = f.timm.toNat then v.extractLsb' 8 8
      else if x = f.timm.toNat + 1 then v.extractLsb' 0 8 else s.mem.read x) →
    ∃ t : State, exec (.uld f) s = .next t ∧
      fetchInstr { t with pc := p } = .ok (decode (joinBytes (byte p.toNat) (byte (p.toNat + 1)) (byte (p.toNat + 2))
        (byte (p.toNat + 3)) (byte (p.toNat + 4)) (byte (p.toNat + 5))))

/-- No field that R90's table marks ignored has an effect on execution. -/
def Obligations.IgnoredFieldsHaveNoEffect : Prop := ∀ (i : Instr) (s : State), exec i s = exec i.usedPart s

/-- Console and trace only grow and are never read by the machine (R35): a step does the same from empty outputs, and
what it emits is appended. -/
def Obligations.OutputsOnlyGrowAndAreNeverRead : Prop :=
  ∀ s : State, step s = mapNext (State.afterOutputs s.console s.trace) (step s.withoutOutputs)

/-- Tracing "changes nothing but whether `trace` receives lines" (R227, D30): under any choice of `TRACE_ENABLE` and
`HEX_UPPER` a step does the same but for the trace. -/
def Obligations.TracingDoesNotAffectExecution : Prop :=
  ∀ (s : State) (enable upper : Bool),
    mapNext State.withoutTrace (step (s.withRendering enable upper)) = mapNext State.withoutTrace (step s)

/-- One line per dispatched instruction, whatever its dispatch then does, and only when tracing is enabled (R121, R225);
none where the fetch faults (D23). -/
def Obligations.TraceLinePerDispatch : Prop :=
  ∀ s t : State, step s = .next t →
    (s.cfg.traceEnable = false → t.trace = s.trace) ∧
    (∀ k, fetchInstr s = .error k → t.trace = s.trace) ∧
    (∀ i, fetchInstr s = .ok i → s.cfg.traceEnable = true →
      t.trace = s.trace ++ [renderTrace s.cfg.hexUpper s.pc i])

/-- All eight worked renderings of R228, its `HEX_UPPER` in the other case, the trace lines of 95_test_vectors.md that
show the classes and operand kinds R228 leaves out, and both dumps of its section 2.8 (R226). The texts are the spec's
decisions D17, D18 and D19 (log entries 21, 22); the combination byte 0xFF is D10's fallback (log entry 14), and the
reset dump shows the reset values of D1 to D3 (log entries 6 to 8). -/
def Obligations.WorkedRenderings : Prop :=
  renderTrace true 0x0000 (decode 0x060000000000) = "0x0: LD R1".toList ∧
  renderTrace true 0x0006 (decode 0x05050000002A) = "0x6: MOV R1,#0x2A".toList ∧
  renderTrace true 0x000C (decode 0x080500000030) = "0xC: BZ R1,#0x30".toList ∧
  renderTrace true 0x0012 (decode 0x072A01000000) = "0x12: ULD 0x100".toList ∧
  renderTrace true 0x0020 (decode 0x012F01000202) = "0x20: ADD 0x100,#0x202".toList ∧
  renderTrace true 0x003C (decode 0x000000000000) = "0x3C: HALT".toList ∧
  renderTrace true 0x0100 (decode 0xABCD12345678) = "0x100: NOP".toList ∧
  renderTrace true 0x0000 (decode 0x05FF00000000) = "0x0: MOV R1,R4".toList ∧
  renderTrace false 0x000C (decode 0x05050000002A) = "0xc: MOV R1,#0x2a".toList ∧
  renderTrace true 0x0000 (decode 0x020100000000) = "0x0: SUB R1,R2".toList ∧
  renderTrace true 0x0000 (decode 0x032800FF0202) = "0x0: MUL #0xFF,#0x202".toList ∧
  renderTrace true 0x0000 (decode 0x04290005FFFF) = "0x0: DIV #0x5,0xFFFF".toList ∧
  renderTrace true 0x0000 (decode 0x051400000100) = "0x0: MOV R3,0x100".toList ∧
  renderTrace true 0x0050 (decode 0x080400000000) = "0x50: BZ R1,IP".toList ∧
  renderTrace true 0x0000 (decode 0x092300010000) = "0x0: SWI #0x1".toList ∧
  renderTrace true 0x0000 (decode 0x090700010000) = "0x0: SWI R2".toList ∧
  renderTrace true 0xFFFA (decode 0x0A2300000000) = "0xFFFA: CALL #0x0".toList ∧
  renderTrace true 0x002C (decode 0x0B3112345678) = "0x2C: RET".toList ∧
  renderDump State.reset =
    ["CS: top=- depth=0x0".toList, "ES: top=- depth=0x0".toList, "R1=0x0 R2=0x0 R3=0x0 R4=0x0".toList,
      "IP=0x0".toList] ∧
  renderDump
      { State.reset with x1 := 0x002A, x3 := 0xFFFE, x4 := 0x0010, pc := 0x0020, es := [0x0001, 0xBEEF],
                         cs := [0x0012] } =
    ["CS: top=0x12 depth=0x1".toList, "ES: top=0xBEEF depth=0x2".toList,
      "R1=0x2A R2=0x0 R3=0xFFFE R4=0x10".toList, "IP=0x20".toList]

/-- Hexadecimal text (R222; the layout is the spec's decision D17): `0x` and digits that spell the value, most
significant first, with no leading zero, letters in the case `HEX_UPPER` selects. -/
def Obligations.HexTextSpellsTheValue : Prop :=
  ∀ (upper : Bool) (v : Word),
    ∃ text : List Char, hexWord upper v = '0' :: 'x' :: text ∧ text ≠ [] ∧ (text.head? = some '0' → text = ['0']) ∧
      (∀ c ∈ text, (0x30 ≤ c.toNat ∧ c.toNat ≤ 0x39) ∨
        (if upper then 0x41 ≤ c.toNat ∧ c.toNat ≤ 0x46 else 0x61 ≤ c.toNat ∧ c.toNat ≤ 0x66)) ∧
      text.foldl (fun n c => 16 * n + (if c.toNat ≤ 0x39 then c.toNat - 0x30
        else if upper then c.toNat - 0x37 else c.toNat - 0x57)) 0 = v.toNat

/-- The configuration is fixed for a run (R227): no step and no resume changes it. -/
def Obligations.ConfigurationIsStatic : Prop :=
  ∀ s t : State, step s = .next t ∨ s.resume = some t → t.cfg = s.cfg

/-- The invariant every step keeps: memory in its canonical form within the 65536 addresses (R36, R50), both stacks
within their capacities (R30). -/
def Obligations.StepKeepsInvariant : Prop :=
  ∀ s t : State, s.wf = true → step s = .next t → t.wf = true

/-- The invariant holds after reset and after every load. -/
def Obligations.StartStatesMeetInvariant : Prop :=
  State.reset.wf = true ∧ ∀ (cfg : Config) (image : List Byte) (s : State), State.start cfg image = some s → s.wf = true
end

