-- ==== Sys2Proof/Laws/Decode.lean ====
section
/-! SUPPORT. The bits of an encoded word, by field. -/

namespace Sys2Proof

/-- Each bit of an encoded word, by the field it belongs to (R81, R82). -/
theorem encodeRaw_getLsbD (o c : Byte) (t s : Word) (i : Nat) :
    (encodeRaw o c t s).getLsbD i =
      if i < 16 then s.getLsbD i
      else if i < 32 then t.getLsbD (i - 16) else if i < 40 then c.getLsbD (i - 32) else o.getLsbD (i - 40) := by
  have h1 := BitVec.getLsbD_append (x := o ++ c ++ t) (y := s) (i := i)
  have h2 := BitVec.getLsbD_append (x := o ++ c) (y := t) (i := i - 16)
  have h3 := BitVec.getLsbD_append (x := o) (y := c) (i := i - 16 - 16)
  refine h1.trans ?_
  by_cases a : i < 16
  · simp [a]
  · rw [h2, h3]
    by_cases b : i < 32
    · simp [a, b, show i - 16 < 16 by omega]
    · by_cases d : i < 40
      · simp [a, b, d, show ¬ i - 16 < 16 by omega, show i - 32 < 8 by omega, show i - 16 - 16 = i - 32 by omega]
      · simp [a, b, d, show ¬ i - 16 < 16 by omega, show ¬ i - 16 - 16 < 8 by omega,
          show i - 16 - 16 - 8 = i - 40 by omega]

end Sys2Proof
end

