-- ==== Sys2Proof/Laws/State.lean ====
section
/-! SUPPORT. One lemma per field per named update of a state, so that no later proof unfolds a record update. -/

namespace Sys2Proof.Machine

open Sys2Proof

/-! ## `setReg` -/

@[simp] theorem State.setReg_cfg (s : State) (r : Reg) (v : Word) : (s.setReg r v).cfg = s.cfg := by
  cases r <;> rfl

@[simp] theorem State.setReg_mem (s : State) (r : Reg) (v : Word) : (s.setReg r v).mem = s.mem := by
  cases r <;> rfl

@[simp] theorem State.setReg_pc (s : State) (r : Reg) (v : Word) : (s.setReg r v).pc = s.pc := by
  cases r <;> rfl

@[simp] theorem State.setReg_es (s : State) (r : Reg) (v : Word) : (s.setReg r v).es = s.es := by
  cases r <;> rfl

@[simp] theorem State.setReg_cs (s : State) (r : Reg) (v : Word) : (s.setReg r v).cs = s.cs := by
  cases r <;> rfl

@[simp] theorem State.setReg_status (s : State) (r : Reg) (v : Word) : (s.setReg r v).status = s.status := by
  cases r <;> rfl

@[simp] theorem State.setReg_console (s : State) (r : Reg) (v : Word) : (s.setReg r v).console = s.console := by
  cases r <;> rfl

@[simp] theorem State.setReg_trace (s : State) (r : Reg) (v : Word) : (s.setReg r v).trace = s.trace := by
  cases r <;> rfl

/-- Reading any register after one is written (R21: no register is hard-wired and none has an alias). -/
@[simp] theorem State.setReg_reg (s : State) (r q : Reg) (v : Word) :
    (s.setReg r v).reg q = if q = r then v else s.reg q := by
  cases r <;> cases q <;> rfl

/-! ## `takeFault` -/

@[simp] theorem State.takeFault_cfg (s : State) (k : FaultKind) : (s.takeFault k).cfg = s.cfg := rfl

@[simp] theorem State.takeFault_mem (s : State) (k : FaultKind) : (s.takeFault k).mem = s.mem := rfl

@[simp] theorem State.takeFault_x1 (s : State) (k : FaultKind) : (s.takeFault k).x1 = s.x1 := rfl

@[simp] theorem State.takeFault_x2 (s : State) (k : FaultKind) : (s.takeFault k).x2 = s.x2 := rfl

@[simp] theorem State.takeFault_x3 (s : State) (k : FaultKind) : (s.takeFault k).x3 = s.x3 := rfl

@[simp] theorem State.takeFault_x4 (s : State) (k : FaultKind) : (s.takeFault k).x4 = s.x4 := rfl

@[simp] theorem State.takeFault_pc (s : State) (k : FaultKind) : (s.takeFault k).pc = s.pc := rfl

@[simp] theorem State.takeFault_es (s : State) (k : FaultKind) : (s.takeFault k).es = s.es := rfl

@[simp] theorem State.takeFault_cs (s : State) (k : FaultKind) : (s.takeFault k).cs = s.cs := rfl

@[simp] theorem State.takeFault_status (s : State) (k : FaultKind) : (s.takeFault k).status = .faulted k := rfl

@[simp] theorem State.takeFault_console (s : State) (k : FaultKind) : (s.takeFault k).console = s.console := rfl

@[simp] theorem State.takeFault_trace (s : State) (k : FaultKind) : (s.takeFault k).trace = s.trace := rfl

@[simp] theorem State.takeFault_reg (s : State) (k : FaultKind) (r : Reg) : (s.takeFault k).reg r = s.reg r := by
  cases r <;> rfl

/-! ## `emitConsole` -/

@[simp] theorem State.emitConsole_cfg (s : State) (c : List Char) : (s.emitConsole c).cfg = s.cfg := rfl

@[simp] theorem State.emitConsole_mem (s : State) (c : List Char) : (s.emitConsole c).mem = s.mem := rfl

@[simp] theorem State.emitConsole_x1 (s : State) (c : List Char) : (s.emitConsole c).x1 = s.x1 := rfl

@[simp] theorem State.emitConsole_x2 (s : State) (c : List Char) : (s.emitConsole c).x2 = s.x2 := rfl

@[simp] theorem State.emitConsole_x3 (s : State) (c : List Char) : (s.emitConsole c).x3 = s.x3 := rfl

@[simp] theorem State.emitConsole_x4 (s : State) (c : List Char) : (s.emitConsole c).x4 = s.x4 := rfl

@[simp] theorem State.emitConsole_pc (s : State) (c : List Char) : (s.emitConsole c).pc = s.pc := rfl

@[simp] theorem State.emitConsole_es (s : State) (c : List Char) : (s.emitConsole c).es = s.es := rfl

@[simp] theorem State.emitConsole_cs (s : State) (c : List Char) : (s.emitConsole c).cs = s.cs := rfl

@[simp] theorem State.emitConsole_status (s : State) (c : List Char) : (s.emitConsole c).status = s.status := rfl

@[simp] theorem State.emitConsole_console (s : State) (c : List Char) :
    (s.emitConsole c).console = s.console ++ c := rfl

@[simp] theorem State.emitConsole_trace (s : State) (c : List Char) : (s.emitConsole c).trace = s.trace := rfl

@[simp] theorem State.emitConsole_reg (s : State) (c : List Char) (r : Reg) : (s.emitConsole c).reg r = s.reg r := by
  cases r <;> rfl

/-! ## `emitTrace` -/

@[simp] theorem State.emitTrace_cfg (s : State) (i : Instr) : (s.emitTrace i).cfg = s.cfg := by
  unfold State.emitTrace; split <;> rfl

@[simp] theorem State.emitTrace_mem (s : State) (i : Instr) : (s.emitTrace i).mem = s.mem := by
  unfold State.emitTrace; split <;> rfl

@[simp] theorem State.emitTrace_x1 (s : State) (i : Instr) : (s.emitTrace i).x1 = s.x1 := by
  unfold State.emitTrace; split <;> rfl

@[simp] theorem State.emitTrace_x2 (s : State) (i : Instr) : (s.emitTrace i).x2 = s.x2 := by
  unfold State.emitTrace; split <;> rfl

@[simp] theorem State.emitTrace_x3 (s : State) (i : Instr) : (s.emitTrace i).x3 = s.x3 := by
  unfold State.emitTrace; split <;> rfl

@[simp] theorem State.emitTrace_x4 (s : State) (i : Instr) : (s.emitTrace i).x4 = s.x4 := by
  unfold State.emitTrace; split <;> rfl

@[simp] theorem State.emitTrace_pc (s : State) (i : Instr) : (s.emitTrace i).pc = s.pc := by
  unfold State.emitTrace; split <;> rfl

@[simp] theorem State.emitTrace_es (s : State) (i : Instr) : (s.emitTrace i).es = s.es := by
  unfold State.emitTrace; split <;> rfl

@[simp] theorem State.emitTrace_cs (s : State) (i : Instr) : (s.emitTrace i).cs = s.cs := by
  unfold State.emitTrace; split <;> rfl

@[simp] theorem State.emitTrace_status (s : State) (i : Instr) : (s.emitTrace i).status = s.status := by
  unfold State.emitTrace; split <;> rfl

@[simp] theorem State.emitTrace_console (s : State) (i : Instr) : (s.emitTrace i).console = s.console := by
  unfold State.emitTrace; split <;> rfl

theorem State.emitTrace_trace (s : State) (i : Instr) :
    (s.emitTrace i).trace = if s.cfg.traceEnable then s.trace ++ [renderTrace s.cfg.hexUpper s.pc i] else s.trace := by
  unfold State.emitTrace; split <;> rfl

@[simp] theorem State.emitTrace_reg (s : State) (i : Instr) (r : Reg) : (s.emitTrace i).reg r = s.reg r := by
  cases r <;> simp [State.reg]

/-- `emitTrace` changes nothing but the trace. -/
theorem State.emitTrace_eq (s : State) (i : Instr) : s.emitTrace i = { s with trace := (s.emitTrace i).trace } := by
  unfold State.emitTrace; split <;> rfl

/-! ## Reading registers of a state with another field updated -/

@[simp] theorem State.reg_with_cfg (s : State) (v : Config) (r : Reg) : State.reg { s with cfg := v } r = s.reg r := by
  cases r <;> rfl

@[simp] theorem State.reg_with_mem (s : State) (v : Memory) (r : Reg) : State.reg { s with mem := v } r = s.reg r := by
  cases r <;> rfl

@[simp] theorem State.reg_with_pc (s : State) (v : Word) (r : Reg) : State.reg { s with pc := v } r = s.reg r := by
  cases r <;> rfl

@[simp] theorem State.reg_with_es (s : State) (v : List Word) (r : Reg) : State.reg { s with es := v } r = s.reg r := by
  cases r <;> rfl

@[simp] theorem State.reg_with_cs (s : State) (v : List Word) (r : Reg) : State.reg { s with cs := v } r = s.reg r := by
  cases r <;> rfl

@[simp] theorem State.reg_with_status (s : State) (v : Status) (r : Reg) : State.reg { s with status := v } r = s.reg r := by
  cases r <;> rfl

@[simp] theorem State.reg_with_console (s : State) (v : List Char) (r : Reg) : State.reg { s with console := v } r = s.reg r := by
  cases r <;> rfl

@[simp] theorem State.reg_with_trace (s : State) (v : List Line) (r : Reg) : State.reg { s with trace := v } r = s.reg r := by
  cases r <;> rfl

end Sys2Proof.Machine
end

