-- ==== Sys2Proof/Laws/Memory.lean ====
section
/-! SUPPORT. The laws of memory: every operation keeps the canonical form, a byte written is the byte read, every
other byte is as before, and two canonical memories with the same bytes are the same data. -/

namespace Sys2Proof.Machine

open Sys2Proof

theorem Memory.wfFrom_cons {lo a : Nat} {b : Byte} {m : Memory} :
    Memory.wfFrom lo ((a, b) :: m) = true ↔
      lo ≤ a ∧ a < 65536 ∧ b ≠ Memory.unlisted ∧ Memory.wfFrom (a + 1) m = true := by
  simp [Memory.wfFrom, and_assoc]

theorem Memory.wfFrom_weaken {lo lo' : Nat} {m : Memory} (h : Memory.wfFrom lo' m = true) (hl : lo ≤ lo') :
    Memory.wfFrom lo m = true := by
  cases m with
  | nil => rfl
  | cons p m =>
    obtain ⟨a, b⟩ := p
    rw [Memory.wfFrom_cons] at h ⊢
    exact ⟨by omega, h.2⟩

/-- Below its lower bound a canonical memory reads as unlisted. -/
theorem Memory.read_below {lo x : Nat} {m : Memory} (h : Memory.wfFrom lo m = true) (hx : x < lo) :
    m.read x = Memory.unlisted := by
  induction m generalizing lo with
  | nil => rfl
  | cons p m ih =>
    obtain ⟨a, b⟩ := p
    rw [Memory.wfFrom_cons] at h
    have hne : x ≠ a := by omega
    simp only [Memory.read, hne, if_false]
    exact ih h.2.2.2 (by omega)

/-- Past the address space a canonical memory reads as unlisted. -/
theorem Memory.read_above {lo x : Nat} {m : Memory} (h : Memory.wfFrom lo m = true) (hx : 65536 ≤ x) :
    m.read x = Memory.unlisted := by
  induction m generalizing lo with
  | nil => rfl
  | cons p m ih =>
    obtain ⟨a, b⟩ := p
    rw [Memory.wfFrom_cons] at h
    have hne : x ≠ a := by omega
    simp only [Memory.read, hne, if_false]
    exact ih h.2.2.2

theorem Memory.cons_wfFrom {lo x : Nat} {v : Byte} {m : Memory} (hlo : lo ≤ x) (hx : x < 65536)
    (h : Memory.wfFrom (x + 1) m = true) : Memory.wfFrom lo (Memory.cons x v m) = true := by
  unfold Memory.cons
  split
  · exact Memory.wfFrom_weaken h (by omega)
  · rename_i hv
    rw [Memory.wfFrom_cons]
    exact ⟨hlo, hx, hv, h⟩

theorem Memory.cons_read {x y : Nat} {v : Byte} {m : Memory} (h : Memory.wfFrom (x + 1) m = true) :
    (Memory.cons x v m).read y = if y = x then v else m.read y := by
  unfold Memory.cons
  split
  · rename_i hv
    split
    · rename_i hy
      rw [Memory.read_below h (by omega), hv]
    · rfl
  · rfl

theorem Memory.write_wfFrom {lo x : Nat} {v : Byte} {m : Memory} (h : Memory.wfFrom lo m = true) (hlo : lo ≤ x)
    (hx : x < 65536) : Memory.wfFrom lo (m.write x v) = true := by
  induction m generalizing lo with
  | nil => exact Memory.cons_wfFrom hlo hx rfl
  | cons p m ih =>
    obtain ⟨a, b⟩ := p
    have h' := Memory.wfFrom_cons.mp h
    unfold Memory.write
    split
    · rename_i hlt
      exact Memory.cons_wfFrom hlo hx (Memory.wfFrom_cons.mpr ⟨by omega, h'.2⟩)
    · split
      · rename_i hge heq
        subst heq
        exact Memory.cons_wfFrom hlo hx h'.2.2.2
      · rename_i hge hne
        exact Memory.wfFrom_cons.mpr ⟨h'.1, h'.2.1, h'.2.2.1, ih h'.2.2.2 (by omega)⟩

/-- A byte stored keeps the canonical form. -/
theorem Memory.write_wf {m : Memory} {x : Nat} {v : Byte} (h : m.wf = true) (hx : x < 65536) : (m.write x v).wf = true :=
  Memory.write_wfFrom h (Nat.zero_le _) hx

theorem Memory.write_read_from {lo x y : Nat} {v : Byte} {m : Memory} (h : Memory.wfFrom lo m = true) :
    (m.write x v).read y = if y = x then v else m.read y := by
  induction m generalizing lo with
  | nil => exact Memory.cons_read rfl
  | cons p m ih =>
    obtain ⟨a, b⟩ := p
    have h' := Memory.wfFrom_cons.mp h
    unfold Memory.write
    split
    · rename_i hlt
      exact Memory.cons_read (Memory.wfFrom_cons.mpr ⟨by omega, h'.2⟩)
    · split
      · rename_i hge heq
        subst heq
        rw [Memory.cons_read h'.2.2.2]
        by_cases hy : y = x <;> simp [Memory.read, hy]
      · rename_i hge hne
        by_cases hy : y = a
        · have : y ≠ x := by omega
          simp [Memory.read, hy, show ¬ a = x by omega]
        · simp only [Memory.read, hy, if_false]
          exact ih h'.2.2.2

/-- Read after write: the byte written at its address, every other byte as before. -/
theorem Memory.write_read {m : Memory} (h : m.wf = true) (x y : Nat) (v : Byte) :
    (m.write x v).read y = if y = x then v else m.read y :=
  Memory.write_read_from h

/-- Bytes stored in a row keep the canonical form. -/
theorem Memory.writeBytes_wf {m : Memory} {x : Nat} {bs : List Byte} (h : m.wf = true) (hx : x + bs.length ≤ 65536) :
    (m.writeBytes x bs).wf = true := by
  induction bs generalizing m x with
  | nil => exact h
  | cons b bs ih =>
    simp only [List.length_cons] at hx
    exact ih (Memory.write_wf h (by omega)) (by omega)

theorem Memory.ofImage_wfFrom {x : Nat} {bs : List Byte} (hx : x + bs.length ≤ 65536) :
    Memory.wfFrom x (Memory.ofImage x bs) = true := by
  induction bs generalizing x with
  | nil => rfl
  | cons b bs ih =>
    simp only [List.length_cons] at hx
    exact Memory.cons_wfFrom le_rfl (by omega) (ih (by omega))

/-- The memory of an image is canonical. -/
theorem Memory.ofImage_wf {bs : List Byte} (h : bs.length ≤ 65536) : (Memory.ofImage 0 bs).wf = true :=
  Memory.ofImage_wfFrom (by omega)

/-- The memory after reset is canonical. -/
theorem State.reset_mem_wf : State.reset.mem.wf = true := rfl

/-- A 16-bit store that answers keeps the canonical form. -/
theorem memWrite16_wf {m m' : Memory} {a v : Word} (h : m.wf = true) (hw : memWrite16 m a v = .ok m') : m'.wf = true := by
  unfold memWrite16 at hw
  split at hw
  · cases hw
  · cases hw
    exact Memory.write_wf (Memory.write_wf h (by omega)) (by omega)

/-- All a 16-bit read can do: MemoryFault at 0xFFFF, else the two bytes. -/
theorem memRead16_cases (m : Memory) (a : Word) :
    (a = 0xFFFF#16 ∧ memRead16 m a = .error .memoryFault) ∨
      (a ≠ 0xFFFF#16 ∧ memRead16 m a = .ok (m.read a.toNat ++ m.read (a.toNat + 1))) := by
  have ha : a = 0xFFFF#16 ↔ a.toNat + 1 > 65535 := by
    have := a.isLt
    rw [← BitVec.toNat_inj]
    simp only [BitVec.reduceToNat]
    omega
  unfold memRead16
  split <;> simp_all

/-- All a 16-bit store can do: MemoryFault at 0xFFFF, else the two bytes stored, high byte first. -/
theorem memWrite16_cases (m : Memory) (a v : Word) :
    (a = 0xFFFF#16 ∧ memWrite16 m a v = .error .memoryFault) ∨
      (a ≠ 0xFFFF#16 ∧
        memWrite16 m a v = .ok ((m.write a.toNat (v.extractLsb' 8 8)).write (a.toNat + 1) (v.extractLsb' 0 8))) := by
  have ha : a = 0xFFFF#16 ↔ a.toNat + 1 > 65535 := by
    have := a.isLt
    rw [← BitVec.toNat_inj]
    simp only [BitVec.reduceToNat]
    omega
  unfold memWrite16
  split <;> simp_all

end Sys2Proof.Machine
end

