-- ==== Sys2Proof/Laws/Ops.lean ====
section
/-! SUPPORT. For each shared operation, and for each instruction's meaning, one lemma that says everything it can do;
proofs cite these and do not unfold the operation again. -/

namespace Sys2Proof.Machine

open Sys2Proof

/-! ## The end of a dispatch -/

@[simp] theorem finish_sequential (s : State) : finish (.sequential s) = .next { s with pc := nextSequential s.pc } := rfl
@[simp] theorem finish_jump (t : Word) (s : State) : finish (.jump t s) = .next { s with pc := t } := rfl
@[simp] theorem finish_stop (s : State) : finish (.stop s) = .next { s with status := .halted } := rfl
@[simp] theorem finish_raise (k : FaultKind) (s : State) : finish (.raise k s) = .next (s.takeFault k) := rfl
@[simp] theorem finish_refuse (r : Refusal) : finish (.refuse r) = .refused r := rfl

@[simp] theorem withValue_ok {α : Type} (v : α) (s : State) (g : α → Dispatched) : withValue (.ok v) s g = g v := rfl
@[simp] theorem withValue_error {α : Type} (k : FaultKind) (s : State) (g : α → Dispatched) :
    withValue (.error k) s g = .raise k s := rfl

/-- If a dispatch ends in a next state, it went on, jumped, stopped or took a fault. -/
theorem finish_next {d : Dispatched} {t : State} (h : finish d = .next t) :
    (∃ s, d = .sequential s ∧ t = { s with pc := nextSequential s.pc }) ∨
      (∃ a s, d = .jump a s ∧ t = { s with pc := a }) ∨
      (∃ s, d = .stop s ∧ t = { s with status := .halted }) ∨ (∃ k s, d = .raise k s ∧ t = s.takeFault k) := by
  cases d with
  | sequential s => cases h; exact .inl ⟨s, rfl, rfl⟩
  | jump a s => cases h; exact .inr (.inl ⟨a, s, rfl, rfl⟩)
  | stop s => cases h; exact .inr (.inr (.inl ⟨s, rfl, rfl⟩))
  | raise k s => cases h; exact .inr (.inr (.inr ⟨k, s, rfl, rfl⟩))
  | refuse r => cases h

/-! ## Stacks -/

/-- A push is refused at a full finite capacity and otherwise appends. -/
theorem State.pushES_cases (s : State) (v : Word) :
    (hasRoom s.cfg.esDepth s.es.length = true ∧ s.pushES v = some { s with es := s.es ++ [v] }) ∨
      (hasRoom s.cfg.esDepth s.es.length = false ∧ s.pushES v = none) := by
  unfold State.pushES; split <;> simp_all

theorem State.pushCS_cases (s : State) (v : Word) :
    (hasRoom s.cfg.csDepth s.cs.length = true ∧ s.pushCS v = some { s with cs := s.cs ++ [v] }) ∨
      (hasRoom s.cfg.csDepth s.cs.length = false ∧ s.pushCS v = none) := by
  unfold State.pushCS; split <;> simp_all

/-- A pop answers nothing on the empty stack and otherwise takes the last element. -/
theorem State.popES_cases (s : State) :
    (s.es = [] ∧ s.popES = none) ∨ (∃ l v, s.es = l ++ [v] ∧ s.popES = some (v, { s with es := l })) := by
  rcases List.eq_nil_or_concat s.es with h | ⟨l, v, h⟩
  · exact .inl ⟨h, by simp [State.popES, h]⟩
  · exact .inr ⟨l, v, by simpa using h, by simp [State.popES, h]⟩

theorem State.popCS_cases (s : State) :
    (s.cs = [] ∧ s.popCS = none) ∨ (∃ l v, s.cs = l ++ [v] ∧ s.popCS = some (v, { s with cs := l })) := by
  rcases List.eq_nil_or_concat s.cs with h | ⟨l, v, h⟩
  · exact .inl ⟨h, by simp [State.popCS, h]⟩
  · exact .inr ⟨l, v, by simpa using h, by simp [State.popCS, h]⟩

/-- Room keeps a stack within its capacity after the push. -/
theorem withinCapacity_push {c : Option Nat} {l : List Word} {v : Word} (h : hasRoom c l.length = true) :
    withinCapacity c (l ++ [v]).length = true := by
  cases c with
  | none => rfl
  | some d => simp_all [hasRoom, withinCapacity]

/-- A shorter stack is within the capacity a longer one is within. -/
theorem withinCapacity_mono {c : Option Nat} {m n : Nat} (h : withinCapacity c n = true) (hm : m ≤ n) :
    withinCapacity c m = true := by
  cases c with
  | none => rfl
  | some d => simp_all [withinCapacity]; omega

/-! ## Operands -/

/-- A read operand either has a value or is an MA operand at 0xFFFF, which is MemoryFault. -/
theorem readOperand_cases (m : Operand) (imm : Word) (s : State) :
    (∃ v, readOperand m imm s = .ok v) ∨ (m = .ma ∧ imm = 0xFFFF#16 ∧ readOperand m imm s = .error .memoryFault) := by
  cases m with
  | reg r => exact .inl ⟨_, rfl⟩
  | ip => exact .inl ⟨_, rfl⟩
  | ct => exact .inl ⟨_, rfl⟩
  | ma =>
    rcases memRead16_cases s.mem imm with ⟨h, e⟩ | ⟨_, e⟩
    · exact .inr ⟨rfl, h, e⟩
    · exact .inl ⟨_, e⟩

/-- The only fault of a read operand, and when it comes. -/
theorem readOperand_error_iff {m : Operand} {imm : Word} {s : State} {k : FaultKind} :
    readOperand m imm s = .error k ↔ m = .ma ∧ imm = 0xFFFF#16 ∧ k = .memoryFault := by
  constructor
  · intro h
    rcases readOperand_cases m imm s with ⟨v, e⟩ | ⟨hm, hi, e⟩
    · rw [e] at h; cases h
    · rw [e] at h; cases h; exact ⟨hm, hi, rfl⟩
  · rintro ⟨rfl, rfl, rfl⟩
    rcases memRead16_cases s.mem 0xFFFF#16 with ⟨_, e⟩ | ⟨h, _⟩
    · exact e
    · exact absurd rfl h

/-- Where MOV's destination is written, and the fault where it cannot be. -/
theorem moveInto_cases (f : Fields) (v : Word) (s : State) :
    (∃ r, f.tgt = .reg r ∧ moveInto f v s = .ok (s.setReg r v)) ∨
      (f.tgt = .ip ∧ moveInto f v s = .ok { s with pc := v }) ∨
      ((f.tgt = .ct ∨ f.tgt = .ma) ∧ moveInto f v s = .error .invalidMoveTarget) := by
  unfold moveInto
  cases h : f.tgt <;> simp

/-- Where ULD's destination is written, and the fault where it cannot be. -/
theorem unloadInto_cases (f : Fields) (v : Word) (s : State) :
    (∃ r, f.tgt = .reg r ∧ unloadInto f v s = .ok (s.setReg r v)) ∨
      (f.tgt = .ip ∧ unloadInto f v s = .ok { s with pc := v }) ∨
      (f.tgt = .ct ∧ unloadInto f v s = .error .invalidUnloadTarget) ∨
      (f.tgt = .ma ∧ f.timm = 0xFFFF#16 ∧ unloadInto f v s = .error .memoryFault) ∨
      (f.tgt = .ma ∧ f.timm ≠ 0xFFFF#16 ∧ ∃ m, memWrite16 s.mem f.timm v = .ok m ∧
        unloadInto f v s = .ok { s with mem := m }) := by
  unfold unloadInto
  cases h : f.tgt with
  | ma => rcases memWrite16_cases s.mem f.timm v with ⟨h1, h2⟩ | ⟨h1, h2⟩ <;> simp only [h2] <;> simp [h1]
  | _ => simp

/-- Push and go on, or refuse. -/
theorem pushAndAdvance_cases (s : State) (v : Word) :
    (hasRoom s.cfg.esDepth s.es.length = true ∧ pushAndAdvance s v = .sequential { s with es := s.es ++ [v] }) ∨
      (hasRoom s.cfg.esDepth s.es.length = false ∧ pushAndAdvance s v = .refuse .evaluationStackFull) := by
  unfold pushAndAdvance
  rcases State.pushES_cases s v with ⟨h, e⟩ | ⟨h, e⟩ <;> simp [h, e]

/-! ## The arithmetic unit -/

/-- The unit answers a value but for a division by zero. -/
theorem arithUnit_error_iff {op : ArithOp} {a b : Word} {k : FaultKind} :
    arithUnit op a b = .error k ↔ op = .div ∧ b = 0#16 ∧ k = .divisionByZero := by
  have hb : b = 0#16 ↔ b.toNat = 0 := by rw [← BitVec.toNat_inj]; rfl
  cases op with
  | div =>
    unfold arithUnit
    by_cases h : b.toNat = 0 <;> simp [h, hb, eq_comm]
  | _ => simp [arithUnit]

/-! ## The meanings -/

/-- All that ADD, SUB, MUL and DIV can do. -/
theorem dispatchArith_cases (op : ArithOp) (f : Fields) (s : State) :
    (∃ k, (readTarget f s = .error k ∨ (∃ a, readTarget f s = .ok a ∧ readSource f s = .error k) ∨
        (∃ a b, readTarget f s = .ok a ∧ readSource f s = .ok b ∧ arithUnit op a b = .error k)) ∧
        finish (dispatchArith op f s) = .next (s.takeFault k)) ∨
      (∃ a b r, readTarget f s = .ok a ∧ readSource f s = .ok b ∧ arithUnit op a b = .ok r ∧
        ((hasRoom s.cfg.esDepth s.es.length = true ∧
          finish (dispatchArith op f s) = .next { s with es := s.es ++ [r], pc := nextSequential s.pc }) ∨
        (hasRoom s.cfg.esDepth s.es.length = false ∧
          finish (dispatchArith op f s) = .refused .evaluationStackFull))) := by
  unfold dispatchArith
  cases ht : readTarget f s with
  | error k => exact .inl ⟨k, .inl rfl, rfl⟩
  | ok a =>
    cases hs : readSource f s with
    | error k => exact .inl ⟨k, .inr (.inl ⟨a, rfl, rfl⟩), rfl⟩
    | ok b =>
      cases hr : arithUnit op a b with
      | error k => exact .inl ⟨k, .inr (.inr ⟨a, b, rfl, rfl, hr⟩), by simp [hr]⟩
      | ok r =>
        refine .inr ⟨a, b, r, rfl, rfl, hr, ?_⟩
        rcases pushAndAdvance_cases s r with ⟨h, e⟩ | ⟨h, e⟩ <;> simp [hr, h, e]

/-- All that MOV can do. -/
theorem execMov_cases (f : Fields) (s : State) :
    (∃ k, readSource f s = .error k ∧ execMov f s = .next (s.takeFault k)) ∨
      (∃ v, readSource f s = .ok v ∧
        ((∃ r, f.tgt = .reg r ∧ execMov f s = .next { s.setReg r v with pc := nextSequential s.pc }) ∨
          (f.tgt = .ip ∧ execMov f s = .next { s with pc := nextSequential v }) ∨
          ((f.tgt = .ct ∨ f.tgt = .ma) ∧ execMov f s = .next (s.takeFault .invalidMoveTarget)))) := by
  unfold execMov
  cases hv : readSource f s with
  | error k => exact .inl ⟨k, rfl, rfl⟩
  | ok v =>
    refine .inr ⟨v, rfl, ?_⟩
    rcases moveInto_cases f v s with ⟨r, h, e⟩ | ⟨h, e⟩ | ⟨h, e⟩
    · exact .inl ⟨r, h, by simp [e]⟩
    · exact .inr (.inl ⟨h, by simp [e]⟩)
    · exact .inr (.inr ⟨h, by simp [e]⟩)

/-- All that LD can do. -/
theorem execLd_cases (f : Fields) (s : State) :
    (∃ k, readTarget f s = .error k ∧ execLd f s = .next (s.takeFault k)) ∨
      (∃ v, readTarget f s = .ok v ∧
        ((hasRoom s.cfg.esDepth s.es.length = true ∧
          execLd f s = .next { s with es := s.es ++ [v], pc := nextSequential s.pc }) ∨
        (hasRoom s.cfg.esDepth s.es.length = false ∧ execLd f s = .refused .evaluationStackFull))) := by
  unfold execLd
  cases hv : readTarget f s with
  | error k => exact .inl ⟨k, rfl, rfl⟩
  | ok v =>
    refine .inr ⟨v, rfl, ?_⟩
    rcases pushAndAdvance_cases s v with ⟨h, e⟩ | ⟨h, e⟩ <;> simp [h, e]

/-- All that ULD can do. -/
theorem execUld_cases (f : Fields) (s : State) :
    (s.es = [] ∧ execUld f s = .next (s.takeFault .stackUnderflow)) ∨
      (∃ l v, s.es = l ++ [v] ∧
        ((∃ r, f.tgt = .reg r ∧
            execUld f s = .next { ({ s with es := l } : State).setReg r v with pc := nextSequential s.pc }) ∨
          (f.tgt = .ip ∧ execUld f s = .next { s with es := l, pc := nextSequential v }) ∨
          (f.tgt = .ct ∧ execUld f s = .next (({ s with es := l } : State).takeFault .invalidUnloadTarget)) ∨
          (f.tgt = .ma ∧ f.timm = 0xFFFF#16 ∧ execUld f s = .next (({ s with es := l } : State).takeFault .memoryFault)) ∨
          (f.tgt = .ma ∧ f.timm ≠ 0xFFFF#16 ∧ ∃ m, memWrite16 s.mem f.timm v = .ok m ∧
            execUld f s = .next { s with es := l, mem := m, pc := nextSequential s.pc }))) := by
  unfold execUld
  rcases State.popES_cases s with ⟨h, e⟩ | ⟨l, v, h, e⟩
  · exact .inl ⟨h, by simp [e]⟩
  · refine .inr ⟨l, v, h, ?_⟩
    simp only [e]
    rcases unloadInto_cases f v { s with es := l } with ⟨r, h, e⟩ | ⟨h, e⟩ | ⟨h, e⟩ | ⟨h, h', e⟩ | ⟨h, h', m, hm, e⟩
    · exact .inl ⟨r, h, by simp [e]⟩
    · exact .inr (.inl ⟨h, by simp [e]⟩)
    · exact .inr (.inr (.inl ⟨h, by simp [e]⟩))
    · exact .inr (.inr (.inr (.inl ⟨h, h', by simp [e]⟩)))
    · exact .inr (.inr (.inr (.inr ⟨h, h', m, hm, by simp [e]⟩)))

/-- All that BZ can do. -/
theorem execBz_cases (f : Fields) (s : State) :
    (∃ k, (readTarget f s = .error k ∨ (∃ a, readTarget f s = .ok a ∧ readSource f s = .error k)) ∧
        execBz f s = .next (s.takeFault k)) ∨
      (∃ t a, readTarget f s = .ok t ∧ readSource f s = .ok a ∧
        ((t = 0#16 ∧ execBz f s = .next { s with pc := a }) ∨
          (t ≠ 0#16 ∧ execBz f s = .next { s with pc := nextSequential s.pc }))) := by
  unfold execBz
  cases ht : readTarget f s with
  | error k => exact .inl ⟨k, .inl rfl, rfl⟩
  | ok t =>
    cases hs : readSource f s with
    | error k => exact .inl ⟨k, .inr ⟨t, rfl, rfl⟩, rfl⟩
    | ok a =>
      refine .inr ⟨t, a, rfl, rfl, ?_⟩
      by_cases h : t = 0#16 <;> simp [testsZero, h]

/-- All that CALL can do. -/
theorem execCall_cases (f : Fields) (s : State) :
    (∃ k, readTarget f s = .error k ∧ execCall f s = .next (s.takeFault k)) ∨
      (∃ t, readTarget f s = .ok t ∧
        ((hasRoom s.cfg.csDepth s.cs.length = true ∧
          execCall f s = .next { s with cs := s.cs ++ [nextSequential s.pc], pc := t }) ∨
        (hasRoom s.cfg.csDepth s.cs.length = false ∧ execCall f s = .refused .callStackFull))) := by
  unfold execCall
  cases ht : readTarget f s with
  | error k => exact .inl ⟨k, rfl, rfl⟩
  | ok t =>
    refine .inr ⟨t, rfl, ?_⟩
    rcases State.pushCS_cases s (nextSequential s.pc) with ⟨h, e⟩ | ⟨h, e⟩ <;> simp [h, e]

/-- All that RET can do. -/
theorem execRet_cases (f : Fields) (s : State) :
    (s.cs = [] ∧ execRet f s = .next (s.takeFault .callStackEmpty)) ∨
      (∃ l r, s.cs = l ++ [r] ∧ execRet f s = .next { s with cs := l, pc := r }) := by
  unfold execRet
  rcases State.popCS_cases s with ⟨h, e⟩ | ⟨l, r, h, e⟩
  · exact .inl ⟨h, by simp [e]⟩
  · exact .inr ⟨l, r, h, by simp [e]⟩

/-- All that SWI can do. -/
theorem execSwi_cases (f : Fields) (s : State) :
    (f.timm = 0#16 ∧ execSwi f s = .next { s with console := s.console ++ characterText s.x1, pc := nextSequential s.pc }) ∨
      (f.timm = 1#16 ∧ execSwi f s = .next { s with console := s.console ++ decimalText s.x1, pc := nextSequential s.pc }) ∨
      (2 ≤ f.timm.toNat ∧ execSwi f s = .next (s.takeFault .unimplementedInterrupt)) := by
  unfold execSwi
  split
  · rename_i h
    exact .inl ⟨BitVec.eq_of_toNat_eq h, rfl⟩
  · rename_i h
    exact .inr (.inl ⟨BitVec.eq_of_toNat_eq h, rfl⟩)
  · rename_i h0 h1
    exact .inr (.inr ⟨Nat.lt_of_le_of_ne (Nat.pos_of_ne_zero h0) (Ne.symm h1), rfl⟩)

/-- What HALT does. -/
theorem execHalt_eq (f : Fields) (s : State) : execHalt f s = .next { s with status := .halted } := rfl

/-- What NOP does. -/
theorem execNop_eq (b : Byte) (f : Fields) (s : State) : execNop b f s = .next { s with pc := nextSequential s.pc } := rfl

/-! ## The step -/

/-- If a step answers a next state, the engine was running, and either the fetch faulted or the Instruction at `pc`
was executed after its trace line. -/
theorem step_next {s t : State} (h : step s = .next t) :
    s.status = .running ∧
      ((∃ k, fetchInstr s = .error k ∧ t = s.takeFault k) ∨
        (∃ i, fetchInstr s = .ok i ∧ exec i (s.emitTrace i) = .next t)) := by
  unfold step at h
  cases hs : s.status with
  | halted => rw [hs] at h; cases h
  | faulted k => rw [hs] at h; cases h
  | running =>
    refine ⟨rfl, ?_⟩
    rw [hs] at h
    cases hf : fetchInstr s with
    | error k =>
      simp only [hf] at h
      cases h
      exact .inl ⟨k, rfl, rfl⟩
    | ok i =>
      simp only [hf] at h
      exact .inr ⟨i, rfl, h⟩

end Sys2Proof.Machine
end

