-- ==== Sys2Proof/Laws/PerInstr.lean ====
section
/-! SUPPORT. Statements about every Instruction as syntax, one lemma per constructor. -/

namespace Sys2Proof.Laws

/-- The opcode byte an Instruction is encoded with is one the decoder classifies as that Instruction's class. -/
def ClassifiedBack.Statement (i : Instr) : Prop := i.wf = true → classify i.opbyte i.fields = i

theorem ClassifiedBack.halt (f : Fields) : ClassifiedBack.Statement (.halt f) := fun _ => rfl
theorem ClassifiedBack.add (f : Fields) : ClassifiedBack.Statement (.add f) := fun _ => rfl
theorem ClassifiedBack.sub (f : Fields) : ClassifiedBack.Statement (.sub f) := fun _ => rfl
theorem ClassifiedBack.mul (f : Fields) : ClassifiedBack.Statement (.mul f) := fun _ => rfl
theorem ClassifiedBack.div (f : Fields) : ClassifiedBack.Statement (.div f) := fun _ => rfl
theorem ClassifiedBack.mov (f : Fields) : ClassifiedBack.Statement (.mov f) := fun _ => rfl
theorem ClassifiedBack.ld (f : Fields) : ClassifiedBack.Statement (.ld f) := fun _ => rfl
theorem ClassifiedBack.uld (f : Fields) : ClassifiedBack.Statement (.uld f) := fun _ => rfl
theorem ClassifiedBack.bz (f : Fields) : ClassifiedBack.Statement (.bz f) := fun _ => rfl
theorem ClassifiedBack.swi (f : Fields) : ClassifiedBack.Statement (.swi f) := fun _ => rfl
theorem ClassifiedBack.call (f : Fields) : ClassifiedBack.Statement (.call f) := fun _ => rfl
theorem ClassifiedBack.ret (f : Fields) : ClassifiedBack.Statement (.ret f) := fun _ => rfl
theorem ClassifiedBack.nop (opbyte : Byte) (f : Fields) : ClassifiedBack.Statement (.nop opbyte f) := by
  intro h
  simp only [Instr.wf, nopByteOk, Bool.and_eq_true, decide_eq_true_eq] at h
  show classify opbyte f = .nop opbyte f
  unfold classify
  split <;> first | omega | rfl

end Sys2Proof.Laws
end

