-- ==== Sys2Proof/Tests/Slice0.lean ====
section
/-! SUPPORT. Tests. Expected values are those of 95_test_vectors.md (the vector's id is in the name's comment) or are
computed by hand from the rule cited; witnesses show that the statements' hypotheses can be met together. -/

namespace Sys2Proof.Tests

open Sys2Proof Sys2Proof.Machine

/-! ## Helpers -/

/-- The next state of an answer, if it is one. -/
def nextOf : Host.Outcome State Fault Refusal → Option State
  | .next s => some s
  | .fault _ => none
  | .refused _ => none

/-- A state with `pc` at an address and a word there. -/
def placedAt (pc : Word) (w : Nat) (s : State) : State := State.withFetchWord { s with pc := pc } 48 w

/-- The state after reset with bytes stored from an address on. -/
def withBytes (a : Nat) (bs : List Byte) : State := { State.reset with mem := Memory.writeBytes [] a bs }

/-- The state after reset with registers as the vectors' `R#`. -/
def numbered : State := { State.reset with x1 := 0x1111, x2 := 0x2222, x3 := 0x3333, x4 := 0x4444 }

/-- One step of a word at an address. -/
def after (pc : Word) (w : Nat) (s : State) : Option State := nextOf (step (placedAt pc w s))

/-! ## Well-formedness: each check refuses an ill-formed term -/

theorem test_wf_accepts : (Instr.mov ⟨0x05, .reg .r1, .ct, 0, 0x2A⟩).wf = true := by decide
theorem test_wf_refuses_wrong_target_tag : (Instr.mov ⟨0x05, .reg .r2, .ct, 0, 0x2A⟩).wf = false := by decide
theorem test_wf_refuses_wrong_source_tag : (Instr.mov ⟨0x05, .reg .r1, .ma, 0, 0x2A⟩).wf = false := by decide
theorem test_wf_refuses_large_byte_with_target_not_r1 : (Instr.ld ⟨0x31, .reg .r2, .reg .r1, 0, 0⟩).wf = false := by decide
theorem test_wf_refuses_large_byte_with_wrong_source : (Instr.ld ⟨0x36, .reg .r1, .ma, 0, 0⟩).wf = false := by decide
theorem test_wf_refuses_assigned_nop_byte : (Instr.nop 0x0B ⟨0x00, .reg .r1, .reg .r1, 0, 0⟩).wf = false := by decide

/-! ## Decoding: one written word per constructor (R80, R83, R88), and the rows of NOP (R94) -/

theorem test_decode_halt : decodeTableWord 48 0x003112345678 = some (.halt ⟨0x31, .reg .r1, .reg .r1, 0x1234, 0x5678⟩) := by
  decide
theorem test_decode_add : decodeTableWord 48 0x013002000202 = some (.add ⟨0x30, .ma, .ma, 0x0200, 0x0202⟩) := by decide
theorem test_decode_sub : decodeTableWord 48 0x020100000000 = some (.sub ⟨0x01, .reg .r1, .reg .r2, 0, 0⟩) := by decide
theorem test_decode_mul : decodeTableWord 48 0x032F01000202 = some (.mul ⟨0x2F, .ma, .ct, 0x0100, 0x0202⟩) := by decide
theorem test_decode_div : decodeTableWord 48 0x042800640007 = some (.div ⟨0x28, .ct, .ct, 0x0064, 0x0007⟩) := by decide
theorem test_decode_mov : decodeTableWord 48 0x051400000100 = some (.mov ⟨0x14, .reg .r3, .ma, 0, 0x0100⟩) := by decide
theorem test_decode_ld : decodeTableWord 48 0x061C00000000 = some (.ld ⟨0x1C, .ip, .reg .r1, 0, 0⟩) := by decide
theorem test_decode_uld : decodeTableWord 48 0x072A02000000 = some (.uld ⟨0x2A, .ma, .reg .r1, 0x0200, 0⟩) := by decide
theorem test_decode_bz : decodeTableWord 48 0x08220000FFFE = some (.bz ⟨0x22, .ip, .ma, 0, 0xFFFE⟩) := by decide
theorem test_decode_swi : decodeTableWord 48 0x092300010000 = some (.swi ⟨0x23, .ct, .reg .r1, 1, 0⟩) := by decide
theorem test_decode_call : decodeTableWord 48 0x0A2300200000 = some (.call ⟨0x23, .ct, .reg .r1, 0x0020, 0⟩) := by decide
theorem test_decode_ret : decodeTableWord 48 0x0B0000000000 = some (.ret ⟨0x00, .reg .r1, .reg .r1, 0, 0⟩) := by decide
theorem test_decode_nop_0C : decodeTableWord 48 0x0C0000000000 = some (.nop 0x0C ⟨0x00, .reg .r1, .reg .r1, 0, 0⟩) := by decide
theorem test_decode_nop_1x : decodeTableWord 48 0x100800000000 = some (.nop 0x10 ⟨0x08, .reg .r2, .reg .r2, 0, 0⟩) := by decide
theorem test_decode_nop_2x : decodeTableWord 48 0x3F0300000000 = some (.nop 0x3F ⟨0x03, .reg .r1, .reg .r4, 0, 0⟩) := by decide
theorem test_decode_nop_4x : decodeTableWord 48 0x401500000000 = some (.nop 0x40 ⟨0x15, .reg .r4, .reg .r1, 0, 0⟩) := by decide
theorem test_decode_nop_8x : decodeTableWord 48 0x801C00000000 = some (.nop 0x80 ⟨0x1C, .ip, .reg .r1, 0, 0⟩) := by decide
theorem test_decode_large_comb : decode 0x05FF00000000 = .mov ⟨0xFF, .reg .r1, .reg .r4, 0, 0⟩ := by decide

/-- Too few bytes are refused by name; six are enough and the rest is given back. -/
theorem test_decode_truncated : decodeBytes [0x0B, 0, 0, 0, 0] = .error .truncated := rfl
theorem test_decode_rest : decodeBytes [0xFF, 0, 0, 0, 0, 0, 0x2A] = .ok (canonicalNop, [0x2A]) := rfl

/-- Canonical encodings of R96. -/
theorem test_encode_canonical_swi :
    encode (.swi (assemble .ct (.reg .r1) 1 0)) = 0x092300010000 ∧ encode canonicalNop = 0xFF0000000000 := by decide

/-! ## Steps -/

/-- A1. -/
theorem test_add_wraps :
    (after 0 0x0128FFFF0001 State.reset).map (fun t => (t.es, t.pc, t.status)) = some ([0], 6, .running) := by decide
/-- A4: both operands from memory, big-endian. -/
theorem test_add_memory_operands :
    (after 0 0x013002000202 (withBytes 0x200 [0x12, 0x34, 0x00, 0x01])).map (·.es) = some [0x1235] := by decide
/-- S2: target minus source. -/
theorem test_sub_order :
    (after 0 0x020100000000 { State.reset with x1 := 5, x2 := 7 }).map (·.es) = some [0xFFFE] := by decide
/-- M1: the low 16 bits of the product. -/
theorem test_mul_truncates : (after 0 0x032800FF0202 State.reset).map (·.es) = some [0xFFFE] := by decide
/-- D3: unsigned division (D7). -/
theorem test_div_unsigned : (after 0 0x04288000FFFF State.reset).map (·.es) = some [0] := by decide
/-- D6: the operand reads come before the zero test (D20). -/
theorem test_div_memory_fault_first :
    (after 0 0x042FFFFF0000 State.reset).map (fun t => (t.es, t.pc, t.status)) = some ([], 0, .faulted .memoryFault) := by
  decide
/-- MV9: combination byte 0xFF is target R1, source R4. -/
theorem test_mov_large_comb :
    (after 0 0x05FF00000000 numbered).map (fun t => (t.x1, t.x2, t.x3, t.x4, t.pc)) =
      some (0x4444, 0x2222, 0x3333, 0x4444, 6) := by decide
/-- MV10: a MOV into IP lands six past the value, wrapping (D4, D6). -/
theorem test_mov_ip_wraps : (after 0x10 0x05210000FFFC State.reset).map (·.pc) = some 0x0002 := by decide
/-- L3: the last legal word. -/
theorem test_ld_last_word : (after 0 0x062AFFFE0000 (withBytes 0xFFFE [0xBE, 0xEF])).map (·.es) = some [0xBEEF] := by
  decide
/-- U2: the store, high byte first; the rest of the stack stays. -/
theorem test_uld_store :
    (after 0 0x072A02000000 { State.reset with es := [0x0001, 0xBEEF] }).map
      (fun t => (t.mem.read 0x200, t.mem.read 0x201, t.es, t.pc)) = some (0xBE, 0xEF, [0x0001], 6) := by decide
/-- U5: the pop is kept, no byte is written (D28). -/
theorem test_uld_store_faults :
    (after 0 0x072AFFFF0000 { State.reset with es := [0x0007, 0x0008] }).map
      (fun t => (t.es, t.mem.read 0xFFFF, t.pc, t.status)) = some ([0x0007], 0, 0, .faulted .memoryFault) := by decide
/-- B3: all 16 bits are tested. -/
theorem test_bz_tests_sixteen_bits :
    (after 0x0C 0x080500000030 { State.reset with x1 := 0x8000 }).map (·.pc) = some 0x0012 := by decide
/-- B6: the source is resolved though the branch is not taken (D22). -/
theorem test_bz_source_faults :
    (after 0x2A 0x08290001FFFF State.reset).map (fun t => (t.pc, t.status)) = some (0x2A, .faulted .memoryFault) := by decide
/-- W5: the raw target-immediate selects, and R1 is printed. -/
theorem test_swi_prints_r1 :
    (after 0 0x090700010000 { State.reset with x1 := 0xFFFF, x2 := 5 }).map (·.console) = some ['6', '5', '5', '3', '5'] := by
  decide
/-- W9: a surrogate prints nothing and the step goes on. -/
theorem test_swi_surrogate :
    (after 0 0x092300000000 { State.reset with x1 := 0xDFFF }).map (fun t => (t.console, t.pc, t.status)) =
      some ([], 6, .running) := by decide
/-- C2: the return address wraps (D4). -/
theorem test_call_wraps :
    (after 0xFFFA 0x0A2300000000 { State.reset with cs := [0x0099] }).map (fun t => (t.cs, t.pc)) =
      some ([0x0099, 0x0000], 0x0000) := by decide
/-- R3: the popped value as it is; all other fields ignored. -/
theorem test_ret_pops :
    (after 0x2C 0x0B3112345678 { State.reset with cs := [0x0012, 0xFFFC] }).map (fun t => (t.cs, t.pc)) =
      some ([0x0012], 0xFFFC) := by decide
/-- H1: `pc` and the stacks stay (D5). -/
theorem test_halt :
    (after 0x0C 0x003112345678 { State.reset with es := [1], cs := [2] }).map (fun t => (t.es, t.cs, t.pc, t.status)) =
      some ([1], [2], 0x0C, .halted) := by decide
/-- N2. -/
theorem test_nop : (after 0x06 0x0C3112345678 numbered).map (fun t => (t.x1, t.pc, t.status)) = some (0x1111, 0x0C, .running) := by
  decide
/-- F1: the fetch past 0xFFFA faults, and no trace line is produced (D23). -/
theorem test_fetch_faults :
    (nextOf (step { State.reset with pc := 0xFFFB, cfg := ⟨true, true, none, none, false⟩ })).map
      (fun t => (t.pc, t.status, t.trace)) = some (0xFFFB, .faulted .memoryFault, []) := by decide
/-- F4: the highest fetchable address is followed by 0x0000 (D4). -/
theorem test_pc_wraps : (after 0xFFFA 0xFF0000000000 State.reset).map (·.pc) = some 0 := by decide
/-- F5, F6: no step when stopped. -/
theorem test_halted_takes_no_step : step { State.reset with status := .halted } = .fault .halted := rfl
/-- A5: the line is traced though the dispatch faults. -/
theorem test_trace_of_faulting_dispatch :
    (after 0 0x0130FFFF0000 { State.reset with cfg := ⟨true, true, none, none, false⟩ }).map (fun t => (t.trace, t.status)) =
      some (["0x0: ADD 0xFFFF,0x0".toList], .faulted .memoryFault) := by decide
/-- `HEX_UPPER` off: lower-case digits (R222). -/
theorem test_hex_lower : hexWord false 0xBEEF = "0xbeef".toList := by decide
/-- The fault codes of D12. -/
theorem test_status_code : (Status.faulted .memoryFault).code = (2, 7) ∧ Status.halted.code = (1, 0) := by decide
/-- Every six-byte word stored for the table is run from reset (here row BZ). -/
theorem test_table_word_is_fetched :
    fetchInstr (State.reset.withFetchWord 48 0x080000000000) = .ok (.bz ⟨0, .reg .r1, .reg .r1, 0, 0⟩) := rfl
/-- The zero bytes of a load are not listed: memory stays canonical. -/
theorem test_load_is_canonical :
    (State.start Config.default [0x06, 0x00, 0x07]).map (·.mem) = some [(0, 0x06), (2, 0x07)] := by decide

/-! ## Witnesses: the hypotheses of the statements, met together -/

/-- Fields of two constants. -/
def constants (a b : Word) : Fields := assemble .ct .ct a b

/-- A stack with one value under the top. -/
def stacked : State := { State.reset with es := [1, 0xBEEF], cs := [0x0012] }

/-- Both stacks at a capacity of one. -/
def full : State := { State.reset with cfg := ⟨false, true, some 1, some 1, true⟩, es := [1], cs := [2] }

/-- `HOST_RESUME` set. -/
def resumable : State := { State.reset with cfg := ⟨true, true, none, none, true⟩ }

theorem witness_opcode_byte :
    (wordOpbyte 0x0B0000000000 = 0x0B ∧ wordOpbyte 0x000000000000 = 0x00) ∧ 0x0C ≤ (wordOpbyte 0x0C0000000000).toNat ∧
      0x0C ≤ (wordOpbyte 0xFF0000000000).toNat := by decide
theorem witness_combination_byte :
    (0x30 : Byte).toNat ≤ 48 ∧ (0x30 : Byte).toNat / 7 ≤ 6 ∧ 49 ≤ (0x31 : Byte).toNat ∧ 49 ≤ (0xFF : Byte).toNat := by decide
theorem witness_well_formed_instructions :
    (Instr.nop 0x0C ⟨0x30, .ma, .ma, 0xFFFF, 0xFFFF⟩).wf = true ∧ (Instr.halt ⟨0xFF, .reg .r1, .reg .r4, 0, 0⟩).wf = true := by
  decide
theorem witness_load : ∃ image : List Byte, image.length ≤ 65536 ∧ image[2]? = some 0x2A ∧ image.length ≤ 3 :=
  ⟨[0x06, 0, 0x2A], by decide⟩
theorem witness_load_at_the_limit : (List.replicate 65536 (0 : Byte)).length ≤ 65536 ∧
    65536 < (List.replicate 65537 (0 : Byte)).length := by
  simp only [List.length_replicate]; decide
theorem witness_operand_addresses : (0xFFFE : Word) ≠ 0xFFFF ∧ readOperand .ma 0xFFFF State.reset = .error .memoryFault :=
  ⟨by decide, rfl⟩
theorem witness_store : ∃ (m : Memory) (a : Word), m.wf = true ∧ a ≠ 0xFFFF ∧ m.read a.toNat = 0x55 :=
  ⟨[(0xFFFE, 0x55)], 0xFFFE, by decide⟩
theorem witness_canonical_memories : ∃ m m' : Memory, m.wf = true ∧ m'.wf = true ∧ ∀ a, a < 65536 → m.read a = m'.read a :=
  ⟨[(3, 1)], [(3, 1)], by decide, by decide, fun _ _ => rfl⟩
/-- For ADD, SUB, MUL, DIV, and BZ falling through. -/
theorem witness_two_operands :
    ∃ (f : Fields) (s : State) (a b : Word), readTarget f s = .ok a ∧ readSource f s = .ok b ∧ b ≠ 0 ∧ a ≠ 0 ∧
      hasRoom s.cfg.esDepth s.es.length = true :=
  ⟨constants 0xFFFF 1, State.reset, 0xFFFF, 1, rfl, rfl, by decide, by decide, rfl⟩
/-- For DIV by zero, and BZ taken. -/
theorem witness_zero_operands :
    ∃ (f : Fields) (s : State), readTarget f s = .ok 0 ∧ readSource f s = .ok 0 ∧ s.status = .running ∧
      ∃ t, exec (.add f) s = .next t := ⟨constants 0 0, State.reset, rfl, rfl, rfl, _, rfl⟩
/-- For MOV into a register and into IP. -/
theorem witness_mov_targets :
    (∃ (f : Fields) (v : Word), readSource f numbered = .ok v ∧ f.tgt = .reg .r4) ∧
      (∃ (f : Fields) (v : Word), readSource f numbered = .ok v ∧ f.tgt = .ip) :=
  ⟨⟨assemble (.reg .r4) .ip 0 0, _, rfl, rfl⟩, ⟨assemble .ip .ct 0 0xFFFA, _, rfl, rfl⟩⟩
/-- For MOV into CT and MA with a source that reads, and into CT, MA, a register and IP with one that faults. -/
theorem witness_mov_refused_targets :
    (∃ (f : Fields) (v : Word), f.tgt = .ct ∧ readSource f numbered = .ok v) ∧
      (∃ (f : Fields) (v : Word), f.tgt = .ma ∧ readSource f numbered = .ok v) ∧
      ∀ t ∈ [Operand.ct, .ma, .reg .r4, .ip],
        (assemble t .ma 0 0xFFFF).tgt = t ∧ readSource (assemble t .ma 0 0xFFFF) numbered = .error .memoryFault :=
  ⟨⟨assemble .ct (.reg .r1) 5 0, _, rfl, rfl⟩, ⟨assemble .ma (.reg .r1) 0 0, _, rfl, rfl⟩, by decide⟩
/-- For LD and CALL. -/
theorem witness_target_operand :
    ∃ (f : Fields) (s : State) (v : Word), readTarget f s = .ok v ∧ hasRoom s.cfg.esDepth s.es.length = true ∧
      hasRoom s.cfg.csDepth s.cs.length = true := ⟨assemble .ma .ct 0xFFFE 0, State.reset, 0, rfl, rfl, rfl⟩
/-- For each destination of ULD. -/
theorem witness_uld_targets :
    stacked.mem.wf = true ∧ stacked.es = [1] ++ [0xBEEF] ∧ (assemble (.reg .r1) .ct 0 0).tgt = .reg .r1 ∧
      (assemble .ip .ct 0 0).tgt = .ip ∧ (assemble .ct .ct 0 0).tgt = .ct ∧
      ((assemble .ma .ct 0xFFFE 0).tgt = .ma ∧ (assemble .ma .ct 0xFFFE 0).timm ≠ 0xFFFF) ∧
      ((assemble .ma .ct 0xFFFF 0).tgt = .ma ∧ (assemble .ma .ct 0xFFFF 0).timm = 0xFFFF) := by decide
theorem witness_stack_underflow :
    ∃ (i : Instr) (t : State), State.reset.es = [] ∧ State.reset.status = .running ∧ exec i State.reset = .next t ∧
      t.status = .faulted .stackUnderflow := ⟨.uld (constants 0 0), _, rfl, rfl, rfl, rfl⟩
theorem witness_pop :
    ∃ (i : Instr) (t : State), exec i stacked = .next t ∧ t.es.length < stacked.es.length :=
  ⟨.uld ⟨0, .reg .r1, .reg .r1, 0, 0⟩, _, rfl, by decide⟩
theorem witness_ret : stacked.cs = [] ++ [0x0012] ∧ State.reset.cs = [] := by decide
/-- A CALL at 0x0000 to 0x0006, one NOP there, and a RET at 0x000C. -/
def callNopRet : State :=
  { State.reset with mem := Memory.ofImage 0 [0x0A, 0x23, 0, 6, 0, 0, 0xFF, 0, 0, 0, 0, 0, 0x0B, 0, 0, 0, 0, 0] }
theorem witness_call_return :
    ∃ (t u : State) (f g : Fields), fetchInstr callNopRet = .ok (.call f) ∧ step callNopRet = .next t ∧
      t.status = .running ∧ stepsAbove t.cs.length 1 t = some u ∧ u.cs.length = t.cs.length ∧ u.status = .running ∧
      fetchInstr u = .ok (.ret g) :=
  ⟨_, _, ⟨0x23, .ct, .reg .r1, 6, 0⟩, ⟨0, .reg .r1, .reg .r1, 0, 0⟩, rfl, rfl, rfl, rfl, rfl, rfl, rfl⟩
/-- SWI codes 0, 1, 2 and 0xFFFF; R1 at the ends of the scalar ranges. -/
theorem witness_swi_codes :
    (constants 0 0).timm = 0 ∧ (constants 1 0).timm = 1 ∧ 2 ≤ (constants 2 0).timm.toNat ∧
      2 ≤ (constants 0xFFFF 0).timm.toNat ∧ (0xD7FF : Word).toNat ≤ 0xD7FF ∧ 0xE000 ≤ (0xE000 : Word).toNat ∧
      (0xD7FF < (0xD800 : Word).toNat ∧ (0xD800 : Word).toNat < 0xE000) ∧
      (0xD7FF < (0xDFFF : Word).toNat ∧ (0xDFFF : Word).toNat < 0xE000) := by decide
/-- An operand fault on the target side, and on the source side after a target that reads. -/
theorem witness_operand_faults :
    readTarget (assemble .ma .ct 0xFFFF 0) State.reset = .error .memoryFault ∧
      readTarget (assemble .ct .ma 0 0xFFFF) State.reset = .ok 0 ∧
      readSource (assemble .ct .ma 0 0xFFFF) State.reset = .error .memoryFault := ⟨rfl, rfl, rfl⟩
/-- Each situation of MemoryFault, and a step without it at the last fetchable address. -/
theorem witness_memory_faults :
    (∃ t, step { State.reset with pc := 0xFFFB } = .next t ∧ t.status = .faulted .memoryFault) ∧
      (∃ t, step (placedAt 0 0x0130FFFF0000 State.reset) = .next t ∧ t.status = .faulted .memoryFault) ∧
      (∃ t, step (placedAt 0 0x08290001FFFF State.reset) = .next t ∧ t.status = .faulted .memoryFault) ∧
      (∃ t, step (placedAt 0 0x072AFFFF0000 stacked) = .next t ∧ t.status = .faulted .memoryFault) ∧
      (∃ t, step { State.reset with pc := 0xFFFA } = .next t ∧ t.status = .halted) :=
  ⟨⟨_, rfl, rfl⟩, ⟨_, rfl, rfl⟩, ⟨_, rfl, rfl⟩, ⟨_, rfl, rfl⟩, ⟨_, rfl, rfl⟩⟩
/-- A fault of a ULD after its pop. -/
theorem witness_fault_after_pop :
    ∃ t, step (placedAt 0 0x072300000000 stacked) = .next t ∧ t.status = .faulted .invalidUnloadTarget ∧ t.es = [1] :=
  ⟨_, rfl, rfl, rfl⟩
/-- A fault that pops nothing, under `HOST_RESUME`; and states in which no resume exists. -/
theorem witness_resume :
    (∃ t, step (placedAt 0 0x040500000000 resumable) = .next t ∧ t.status = .faulted .divisionByZero ∧ t.es = resumable.es ∧
        resumable.cfg.hostResume = true ∧ t.resume = some { t with status := .running }) ∧
      State.reset.cfg.hostResume = false ∧ resumable.status = .running :=
  ⟨⟨_, rfl, rfl, rfl, rfl, rfl⟩, rfl, rfl⟩
theorem witness_full_stacks :
    full.cfg.esDepth = some 1 ∧ 1 ≤ full.es.length ∧ full.cfg.csDepth = some 1 ∧ 1 ≤ full.cs.length ∧ full.wf = true := by
  decide
theorem witness_step_of_decoded :
    ∃ (s : State) (i : Instr), s.status = .running ∧ s.pc.toNat ≤ 0xFFFA ∧
      decodeBytes [s.mem.read s.pc.toNat, s.mem.read (s.pc.toNat + 1), s.mem.read (s.pc.toNat + 2),
        s.mem.read (s.pc.toNat + 3), s.mem.read (s.pc.toNat + 4), s.mem.read (s.pc.toNat + 5)] = .ok (i, []) :=
  ⟨placedAt 0xFFFA 0x0A2300000000 State.reset, .call ⟨0x23, .ct, .reg .r1, 0, 0⟩, rfl, by decide, rfl⟩
theorem witness_fetch_boundary : 0xFFFB ≤ (0xFFFB : Word).toNat ∧ (0xFFFA : Word).toNat ≤ 0xFFFA := by decide
theorem witness_always_steps :
    State.reset.status = .running ∧ State.reset.cfg.esDepth = none ∧ State.reset.cfg.csDepth = none := by decide
/-- A step that changes a register, and one that changes memory. -/
theorem witness_changes :
    (∃ t, step (placedAt 0 0x05050000002A State.reset) = .next t ∧ t.reg .r1 ≠ State.reset.reg .r1) ∧
      (∃ t, (placedAt 0 0x072A02000000 stacked).mem.wf = true ∧ step (placedAt 0 0x072A02000000 stacked) = .next t ∧
        t.mem.read 0x201 ≠ (placedAt 0 0x072A02000000 stacked).mem.read 0x201) :=
  ⟨⟨_, rfl, by decide⟩, ⟨_, rfl, rfl, by decide⟩⟩
/-- A store over the last byte of one instruction and the first of the next. -/
theorem witness_store_over_code :
    ∃ (f : Fields) (p : Word) (byte : Nat → Byte), stacked.mem.wf = true ∧ stacked.es = [1] ++ [0xBEEF] ∧ f.tgt = .ma ∧
      f.timm ≠ 0xFFFF ∧ p.toNat ≤ 0xFFFA ∧ f.timm.toNat + 1 = p.toNat ∧
      (∀ x, byte x = if x = f.timm.toNat then (0xBEEF : Word).extractLsb' 8 8
        else if x = f.timm.toNat + 1 then (0xBEEF : Word).extractLsb' 0 8 else stacked.mem.read x) :=
  ⟨assemble .ma .ct 0x000B 0, 0x000C, _, by decide, by decide, by decide, by decide, by decide, by decide, fun _ => rfl⟩
/-- A traced step, and one without tracing. -/
theorem witness_traced :
    (∃ t i, step (placedAt 0 0x060000000000 resumable) = .next t ∧ fetchInstr (placedAt 0 0x060000000000 resumable) = .ok i ∧
        resumable.cfg.traceEnable = true ∧ t.trace = ["0x0: LD R1".toList]) ∧
      State.reset.cfg.traceEnable = false :=
  ⟨⟨_, .ld ⟨0, .reg .r1, .reg .r1, 0, 0⟩, rfl, rfl, rfl, by decide⟩, rfl⟩
/-- A state that meets the invariant and steps, at a finite capacity the step fills. -/
theorem witness_invariant :
    ∃ t, State.wf { full with es := [], mem := [(0, 0x06)] } = true ∧
      step { full with es := [], mem := [(0, 0x06)] } = .next t ∧ t.es = [0] := ⟨_, rfl, rfl, rfl⟩

end Sys2Proof.Tests
end

section
/-! PROOFS. Reset and load (10_state.md R37): what an image leaves in memory, and that a word stored there is the word
read back. -/

namespace Sys2Proof.Machine

open Sys2Proof

/-- The memory of an image reads as the image's byte inside it and as unlisted past its end (R37, R66). -/
theorem Memory.ofImage_read {x : Nat} {bs : List Byte} (hx : x + bs.length ≤ 65536) (i : Nat) :
    (Memory.ofImage x bs).read (x + i) = bs[i]?.getD Memory.unlisted := by
  induction bs generalizing x i with
  | nil => rfl
  | cons b bs ih =>
    have htail : x + 1 + bs.length ≤ 65536 := by simp only [List.length_cons] at hx; omega
    rw [Memory.ofImage, Memory.cons_read (Memory.ofImage_wfFrom htail)]
    cases i with
    | zero => simp
    | succ i =>
      have hpast : x + (i + 1) = x + 1 + i := by omega
      simp [hpast, ih htail i, show x + 1 + i ≠ x by omega]

/-- The two bytes a store cuts a word into are the word again. -/
theorem highByte_append_lowByte (v : Word) : v.extractLsb' 8 8 ++ v.extractLsb' 0 8 = v :=
  (BitVec.extractLsb'_append_extractLsb'_eq_extractLsb' (start₁ := 0) (start₂ := 8) rfl).trans BitVec.extractLsb'_eq_self

/-- A word stored in canonical memory is the word read back at the same address (R52, R53). -/
theorem memRead16_of_memWrite16 {m m' : Memory} {a v : Word} (h : m.wf = true) (hw : memWrite16 m a v = .ok m') :
    memRead16 m' a = .ok v := by
  obtain ⟨_, hfault⟩ | ⟨ha, hstore⟩ := memWrite16_cases m a v
  · cases hfault.symm.trans hw
  · cases hstore.symm.trans hw
    obtain ⟨hmax, _⟩ | ⟨_, hread⟩ := memRead16_cases _ a
    · exact absurd hmax ha
    · have hhigh : (m.write a.toNat (v.extractLsb' 8 8)).wf = true := Memory.write_wf h a.isLt
      rw [hread]
      simp [Memory.write_read hhigh, Memory.write_read h, highByte_append_lowByte]

/-- An image that fits is loaded, whatever the configuration. -/
theorem State.start_of_length_le {cfg : Config} {image : List Byte} (h : image.length ≤ 65536) :
    State.start cfg image = some { State.reset with cfg := cfg, mem := Memory.ofImage 0 image } :=
  if_pos h

/-- Settles O10: `Memory.ofImage_read` gives the two clauses on what is read, and the store reads back because the
memory of an image is canonical. -/
theorem loadPlacesImageAndZeroes : Obligations.LoadPlacesImageAndZeroes := by
  unfold Obligations.LoadPlacesImageAndZeroes
  intro cfg image hlen
  have hread (a : Nat) : (Memory.ofImage 0 image).read a = image[a]?.getD Memory.unlisted := by
    simpa using Memory.ofImage_read (x := 0) (bs := image) (by omega) a
  refine ⟨_, State.start_of_length_le hlen, fun a b hb => ?image, fun a ha => ?zero, fun a v ha => ?mutable⟩
  case image => rw [hread, hb, Option.getD_some]
  case zero => rw [hread, List.getElem?_eq_none ha, Option.getD_none, Memory.unlisted]
  case mutable =>
    obtain ⟨hmax, _⟩ | ⟨_, hstore⟩ := memWrite16_cases (Memory.ofImage 0 image) a v
    · exact absurd hmax ha
    · exact ⟨_, hstore, memRead16_of_memWrite16 (Memory.ofImage_wf hlen) hstore⟩

end Sys2Proof.Machine
end

section
/-! PROOFS. Encoding (30_encoding.md R82 to R85): what the opcode byte and the combination byte select, and that
taking a word apart into its four raw fields and joining them are inverse. -/

namespace Sys2Proof

/-! ## The operand tags (R85, R86) -/

/-- The tag of a mode number of R86 carries that number. -/
theorem mode_tagOfMode {m : Nat} (h : m ≤ 6) : (tagOfMode m).mode = m := by
  interval_cases m <;> rfl

/-- Settles O3: a remainder by 7 is always a mode number, a quotient is one where the statement asks for it. -/
theorem combinationByteSplitsByRadixSeven : Obligations.CombinationByteSplitsByRadixSeven := by
  unfold Obligations.CombinationByteSplitsByRadixSeven
  intro comb
  have hquotient : comb.toNat / 7 ≤ 36 := by have := comb.isLt; omega
  have hremainder : comb.toNat % 7 ≤ 6 := by omega
  exact ⟨hquotient, hremainder, mode_tagOfMode hremainder, mode_tagOfMode⟩

/-! ## The opcode class (R83, R84) -/

/-- An opcode byte assigned to no other class is NOP's, whatever the fields (R84). -/
theorem classify_of_unassigned {b : Byte} (f : Fields) (h : 0x0C ≤ b.toNat) : classify b f = .nop b f := by
  unfold classify
  split
  case h_13 => rfl
  all_goals omega

/-- The Instruction of an opcode byte has that opcode byte. -/
@[simp] theorem opbyte_classify (b : Byte) (f : Fields) : (classify b f).opbyte = b := by
  unfold classify
  split
  case h_13 => rfl
  all_goals exact BitVec.eq_of_toNat_eq (Eq.symm ‹b.toNat = _›)

/-- The Instruction of an opcode byte has the fields it is given. -/
@[simp] theorem fields_classify (b : Byte) (f : Fields) : (classify b f).fields = f := by
  unfold classify
  split <;> rfl

/-- Settles O2: `decode` classifies the opcode byte, each assigned byte by its own arm of the table. -/
theorem opcodeByteSelectsClass : Obligations.OpcodeByteSelectsClass := by
  unfold Obligations.OpcodeByteSelectsClass
  intro w b f hb hf
  have hdecode : decode w = classify b f := by rw [hb, hf, decode]
  rw [hdecode]
  refine ⟨?_, ?_, ?_, ?_, ?_, ?_, ?_, ?_, ?_, ?_, ?_, ?_, classify_of_unassigned f⟩
  all_goals intro hassigned; rw [hassigned]; rfl

/-! ## The raw fields of a word (R81, R82) -/

section RawFields
variable (o c : Byte) (t u : Word)

@[simp] theorem wordOpbyte_encodeRaw : wordOpbyte (encodeRaw o c t u) = o := by
  refine BitVec.eq_of_getLsbD_eq fun i hi => ?_
  rw [wordOpbyte, BitVec.getLsbD_extractLsb', encodeRaw_getLsbD]
  simp [hi, show ¬ 40 + i < 16 by omega, show ¬ 40 + i < 32 by omega]

@[simp] theorem wordComb_encodeRaw : wordComb (encodeRaw o c t u) = c := by
  refine BitVec.eq_of_getLsbD_eq fun i hi => ?_
  rw [wordComb, BitVec.getLsbD_extractLsb', encodeRaw_getLsbD]
  simp [hi, show ¬ 32 + i < 16 by omega, show 32 + i < 40 by omega]

@[simp] theorem wordTimm_encodeRaw : wordTimm (encodeRaw o c t u) = t := by
  refine BitVec.eq_of_getLsbD_eq fun i hi => ?_
  rw [wordTimm, BitVec.getLsbD_extractLsb', encodeRaw_getLsbD]
  simp [hi, show 16 + i < 32 by omega]

@[simp] theorem wordSimm_encodeRaw : wordSimm (encodeRaw o c t u) = u := by
  refine BitVec.eq_of_getLsbD_eq fun i hi => ?_
  rw [wordSimm, BitVec.getLsbD_extractLsb', encodeRaw_getLsbD]
  simp [hi]

end RawFields

/-- The four raw fields stand next to each other and fill the word (R80), so joining them gives it back. -/
theorem encodeRaw_fields (w : InstrWord) : encodeRaw (wordOpbyte w) (wordComb w) (wordTimm w) (wordSimm w) = w := by
  have hhigh : wordOpbyte w ++ wordComb w = w.extractLsb' 32 16 :=
    BitVec.extractLsb'_append_extractLsb'_eq_extractLsb' rfl
  have hmiddle : w.extractLsb' 32 16 ++ wordTimm w = w.extractLsb' 16 32 :=
    BitVec.extractLsb'_append_extractLsb'_eq_extractLsb' rfl
  have hwhole : w.extractLsb' 16 32 ++ wordSimm w = w.extractLsb' 0 48 :=
    BitVec.extractLsb'_append_extractLsb'_eq_extractLsb' rfl
  rw [encodeRaw, hhigh, hmiddle, hwhole, BitVec.extractLsb'_eq_self]

/-- Decoding keeps all four raw fields, so encoding gives the word back (R82). -/
theorem encode_decode (w : InstrWord) : encode (decode w) = w := by
  rw [encode, decode, opbyte_classify, fields_classify]
  exact encodeRaw_fields w

/-- Settles O6: the classifications alone do not determine the word, since the combination bytes 0 and 49 both have
the tags R1 and R1 (R87). -/
theorem rawFieldsAndWordsAreInverse : Obligations.RawFieldsAndWordsAreInverse := by
  unfold Obligations.RawFieldsAndWordsAreInverse
  refine ⟨encodeRaw_fields, fun o c t u => ?extraction, encode_decode, ?sameClassification⟩
  case extraction =>
    exact ⟨wordOpbyte_encodeRaw o c t u, wordComb_encodeRaw o c t u, wordTimm_encodeRaw o c t u,
      wordSimm_encodeRaw o c t u⟩
  case sameClassification =>
    exact ⟨0x050000000000, 0x053100000000, 0x00, 0x31, .reg .r1, .reg .r1, 0, 0, by decide⟩

end Sys2Proof
end

section
/-! PROOFS. The fetch (40_execution_cycle.md R112): the six bytes at `pc`, or MemoryFault and a step that changes only
the status. -/

namespace Sys2Proof.Machine

open Sys2Proof

/-- All the fetch's read can do: MemoryFault where the sixth byte would lie past 0xFFFF, else the six bytes (R52, R57). -/
theorem memRead48_cases (m : Memory) (a : Word) :
    (0xFFFB ≤ a.toNat ∧ memRead48 m a = .error .memoryFault) ∨
      (a.toNat ≤ 0xFFFA ∧ memRead48 m a = .ok (joinBytes (m.read a.toNat) (m.read (a.toNat + 1)) (m.read (a.toNat + 2))
        (m.read (a.toNat + 3)) (m.read (a.toNat + 4)) (m.read (a.toNat + 5)))) := by
  by_cases hpast : a.toNat + 5 > 65535
  · exact .inl ⟨by omega, if_pos hpast⟩
  · exact .inr ⟨by omega, if_neg hpast⟩

/-- A word that memory answers is the word decoded. -/
theorem fetchInstr_of_memRead48_ok {s : State} {w : InstrWord} (h : memRead48 s.mem s.pc = .ok w) :
    fetchInstr s = .ok (decode w) := by
  rw [fetchInstr, h]

/-- A fault of the read is the fault of the fetch. -/
theorem fetchInstr_of_memRead48_error {s : State} {k : FaultKind} (h : memRead48 s.mem s.pc = .error k) :
    fetchInstr s = .error k := by
  rw [fetchInstr, h]

/-- A running step whose fetch faults takes that fault, with nothing traced (R112, D23). -/
theorem step_of_fetchInstr_error {s : State} {k : FaultKind} (hrunning : s.status = .running)
    (hfetch : fetchInstr s = .error k) : step s = .next (s.takeFault k) := by
  simp only [step, hrunning, hfetch]

/-- Settles O44: six bytes fit at `pc` exactly up to 0xFFFA, and each case of the read decides one clause and empties
the other. -/
theorem fetchReadsSixBytesOrFaults : Obligations.FetchReadsSixBytesOrFaults := by
  unfold Obligations.FetchReadsSixBytesOrFaults
  intro s
  obtain ⟨hpast, hread⟩ | ⟨hfits, hread⟩ := memRead48_cases s.mem s.pc
  · have hfetch : fetchInstr s = .error .memoryFault := fetchInstr_of_memRead48_error hread
    exact ⟨fun _ => ⟨hfetch, fun hrunning => step_of_fetchInstr_error hrunning hfetch⟩, fun hfits => by omega⟩
  · exact ⟨fun hpast => by omega, fun _ => fetchInstr_of_memRead48_ok hread⟩

end Sys2Proof.Machine
end

section
/-! PROOFS. Control transfer (43_control_transfer.md R182, 60_exceptions.md R244): RET with a value on the call stack
and on an empty one. -/

namespace Sys2Proof.Machine

open Sys2Proof

/-- RET is dispatched to its own meaning (R123). -/
theorem exec_ret (f : Fields) (s : State) : exec (.ret f) s = execRet f s := rfl

/-- Settles O29: the call stack is empty or has one top, so each case of RET decides one clause and empties the
other. -/
theorem retPopsCallStack : Obligations.RetPopsCallStack := by
  unfold Obligations.RetPopsCallStack
  intro f s
  rw [exec_ret]
  obtain ⟨hempty, hfault⟩ | ⟨l, r, htop, hpop⟩ := execRet_cases f s
  · exact ⟨fun l r htop => absurd (hempty.symm.trans htop) (List.concat_ne_nil r l).symm, fun _ => hfault⟩
  · refine ⟨fun l' r' htop' => ?_, fun hempty => absurd (htop.symm.trans hempty) (List.concat_ne_nil r l)⟩
    obtain ⟨rfl, rfl⟩ : l = l' ∧ r = r' := by simpa using htop.symm.trans htop'
    exact hpop

end Sys2Proof.Machine
end

section
/-! PROOFS. Faults by instruction (60_exceptions.md R242, R243, R246, R263): where DivisionByZero, StackUnderflow and
InvalidUnloadTarget come from, and that no instruction but ULD makes the evaluation stack shorter. -/

namespace Sys2Proof.Machine

open Sys2Proof

/-! ## Operands and arithmetic -/

/-- A read of the target operand raises no other fault than MemoryFault (R114). -/
theorem eq_memoryFault_of_readTarget {f : Fields} {s : State} {k : FaultKind} (h : readTarget f s = .error k) :
    k = .memoryFault :=
  (readOperand_error_iff.mp h).2.2

/-- A read of the source operand raises no other fault than MemoryFault (R114). -/
theorem eq_memoryFault_of_readSource {f : Fields} {s : State} {k : FaultKind} (h : readSource f s = .error k) :
    k = .memoryFault :=
  (readOperand_error_iff.mp h).2.2

/-- With both operands read, an arithmetic instruction is the unit's answer, pushed or raised (R124). -/
theorem dispatchArith_of_readable {f : Fields} {s : State} {a b : Word} (op : ArithOp) (ht : readTarget f s = .ok a)
    (hs : readSource f s = .ok b) :
    dispatchArith op f s = withValue (arithUnit op a b) s fun r => pushAndAdvance s r := by
  rw [dispatchArith, ht, withValue_ok, hs, withValue_ok]

/-- An arithmetic instruction that answers a next state raised MemoryFault, raised DivisionByZero from DIV, or pushed
one value and went on. -/
theorem dispatchArith_next {op : ArithOp} {f : Fields} {s t : State} (h : finish (dispatchArith op f s) = .next t) :
    t = s.takeFault .memoryFault ∨ (op = .div ∧ t = s.takeFault .divisionByZero) ∨
      ∃ r, t = { s with es := s.es ++ [r], pc := nextSequential s.pc } := by
  obtain ⟨k, hraised, hfault⟩ | ⟨_, _, r, _, _, _, ⟨_, hpush⟩ | ⟨_, hrefuse⟩⟩ := dispatchArith_cases op f s
  · cases hfault.symm.trans h
    obtain htarget | ⟨_, _, hsource⟩ | ⟨_, _, _, _, hunit⟩ := hraised
    · cases eq_memoryFault_of_readTarget htarget
      exact .inl rfl
    · cases eq_memoryFault_of_readSource hsource
      exact .inl rfl
    · obtain ⟨hdiv, _, rfl⟩ := arithUnit_error_iff.mp hunit
      exact .inr (.inl ⟨hdiv, rfl⟩)
  · cases hpush.symm.trans h
    exact .inr (.inr ⟨r, rfl⟩)
  · cases hrefuse.symm.trans h

/-! ## ULD -/

/-- With a value on top, ULD goes on in the state without it (R162). -/
theorem execUld_of_concat {f : Fields} {s : State} {l : List Word} {v : Word} (h : s.es = l ++ [v]) :
    execUld f s = finish (withValue (unloadInto f v { s with es := l }) { s with es := l } .sequential) := by
  have hpop : s.popES = some (v, { s with es := l }) := by simp [State.popES, h]
  rw [execUld, hpop]

/-- CT is not a destination of ULD (R115, R162). -/
theorem unloadInto_of_ct {f : Fields} (h : f.tgt = .ct) (v : Word) (s : State) :
    unloadInto f v s = .error .invalidUnloadTarget := by
  rw [unloadInto, h]

/-- ULD raises StackUnderflow on the empty stack; on any other it takes the top and either keeps the status or raises
one of the two faults that come after the pop. -/
theorem execUld_next {f : Fields} {s t : State} (h : execUld f s = .next t) :
    (s.es = [] ∧ t = s.takeFault .stackUnderflow) ∨
      ((∃ v, s.es = t.es ++ [v]) ∧
        (t.status = s.status ∨ t.status = .faulted .invalidUnloadTarget ∨ t.status = .faulted .memoryFault)) := by
  obtain ⟨hempty, hfault⟩ | ⟨l, v, htop, hdone⟩ := execUld_cases f s
  · cases hfault.symm.trans h
    exact .inl ⟨hempty, rfl⟩
  · refine .inr ?_
    obtain ⟨_, _, he⟩ | ⟨_, he⟩ | ⟨_, he⟩ | ⟨_, _, he⟩ | ⟨_, _, _, _, he⟩ := hdone <;> cases he.symm.trans h
    · exact ⟨⟨v, by simpa using htop⟩, .inl (State.setReg_status _ _ _)⟩
    · exact ⟨⟨v, htop⟩, .inl rfl⟩
    · exact ⟨⟨v, htop⟩, .inr (.inl rfl)⟩
    · exact ⟨⟨v, htop⟩, .inr (.inr rfl)⟩
    · exact ⟨⟨v, htop⟩, .inl rfl⟩

/-! ## Every other instruction -/

/-- Either a fault of the list was taken and changed the status alone, or no fault was taken and the evaluation stack
still begins with what it held. -/
def FaultsAloneOrKeepsES (kinds : List FaultKind) (s t : State) : Prop :=
  (∃ k ∈ kinds, t = s.takeFault k) ∨ ((t.status = s.status ∨ t.status = .halted) ∧ s.es <+: t.es)

theorem FaultsAloneOrKeepsES.of_takeFault {kinds : List FaultKind} {s : State} {k : FaultKind} (h : k ∈ kinds) :
    FaultsAloneOrKeepsES kinds s (s.takeFault k) :=
  .inl ⟨k, h, rfl⟩

/-- A next state with the status and the evaluation stack of the one before it. -/
theorem FaultsAloneOrKeepsES.of_same {kinds : List FaultKind} {s t : State} (hstatus : t.status = s.status)
    (hes : t.es = s.es) : FaultsAloneOrKeepsES kinds s t :=
  .inr ⟨.inl hstatus, hes ▸ List.prefix_refl s.es⟩

/-- A next state with the status of the one before it and one value pushed. -/
theorem FaultsAloneOrKeepsES.of_push {kinds : List FaultKind} {s t : State} {v : Word} (hstatus : t.status = s.status)
    (hes : t.es = s.es ++ [v]) : FaultsAloneOrKeepsES kinds s t :=
  .inr ⟨.inl hstatus, hes ▸ List.prefix_append s.es [v]⟩

/-- What a Running state leads to carries no fault outside the list. -/
theorem FaultsAloneOrKeepsES.mem_of_faulted {kinds : List FaultKind} {s t : State} {k : FaultKind}
    (h : FaultsAloneOrKeepsES kinds s t) (hrunning : s.status = .running) (hfault : t.status = .faulted k) :
    k ∈ kinds := by
  obtain ⟨k', hk', rfl⟩ | ⟨hsame | hhalted, _⟩ := h
  · cases hfault
    exact hk'
  · cases hrunning.symm.trans (hsame.symm.trans hfault)
  · cases hhalted.symm.trans hfault

theorem FaultsAloneOrKeepsES.es_length_le {kinds : List FaultKind} {s t : State}
    (h : FaultsAloneOrKeepsES kinds s t) : s.es.length ≤ t.es.length := by
  obtain ⟨_, _, rfl⟩ | ⟨_, hprefix⟩ := h
  · exact le_rfl
  · exact hprefix.length_le

/-- The arithmetic instructions, under any list that has their faults. -/
theorem dispatchArith_faultsAloneOrKeepsES {op : ArithOp} {f : Fields} {s t : State} {kinds : List FaultKind}
    (h : finish (dispatchArith op f s) = .next t) (hmemory : .memoryFault ∈ kinds)
    (hdiv : op = .div → .divisionByZero ∈ kinds) : FaultsAloneOrKeepsES kinds s t := by
  obtain rfl | ⟨hop, rfl⟩ | ⟨r, rfl⟩ := dispatchArith_next h
  · exact .of_takeFault hmemory
  · exact .of_takeFault (hdiv hop)
  · exact .of_push rfl rfl

theorem execMov_faultsAloneOrKeepsES {f : Fields} {s t : State} (h : execMov f s = .next t) :
    FaultsAloneOrKeepsES [.memoryFault, .invalidMoveTarget] s t := by
  obtain ⟨k, hsource, he⟩ | ⟨v, _, ⟨r, _, he⟩ | ⟨_, he⟩ | ⟨_, he⟩⟩ := execMov_cases f s <;> cases he.symm.trans h
  · cases eq_memoryFault_of_readSource hsource
    exact .of_takeFault (by simp)
  · exact .of_same (State.setReg_status s r v) (State.setReg_es s r v)
  · exact .of_same rfl rfl
  · exact .of_takeFault (by simp)

theorem execLd_faultsAloneOrKeepsES {f : Fields} {s t : State} (h : execLd f s = .next t) :
    FaultsAloneOrKeepsES [.memoryFault] s t := by
  obtain ⟨k, htarget, he⟩ | ⟨_, _, ⟨_, he⟩ | ⟨_, he⟩⟩ := execLd_cases f s <;> cases he.symm.trans h
  · cases eq_memoryFault_of_readTarget htarget
    exact .of_takeFault (by simp)
  · exact .of_push rfl rfl

theorem execBz_faultsAloneOrKeepsES {f : Fields} {s t : State} (h : execBz f s = .next t) :
    FaultsAloneOrKeepsES [.memoryFault] s t := by
  obtain ⟨k, hraised, he⟩ | ⟨_, _, _, _, ⟨_, he⟩ | ⟨_, he⟩⟩ := execBz_cases f s <;> cases he.symm.trans h
  · obtain rfl : k = .memoryFault := by
      obtain htarget | ⟨_, _, hsource⟩ := hraised
      · exact eq_memoryFault_of_readTarget htarget
      · exact eq_memoryFault_of_readSource hsource
    exact .of_takeFault (by simp)
  · exact .of_same rfl rfl
  · exact .of_same rfl rfl

theorem execSwi_faultsAloneOrKeepsES {f : Fields} {s t : State} (h : execSwi f s = .next t) :
    FaultsAloneOrKeepsES [.unimplementedInterrupt] s t := by
  obtain ⟨_, he⟩ | ⟨_, he⟩ | ⟨_, he⟩ := execSwi_cases f s <;> cases he.symm.trans h
  · exact .of_same rfl rfl
  · exact .of_same rfl rfl
  · exact .of_takeFault (by simp)

theorem execCall_faultsAloneOrKeepsES {f : Fields} {s t : State} (h : execCall f s = .next t) :
    FaultsAloneOrKeepsES [.memoryFault] s t := by
  obtain ⟨k, htarget, he⟩ | ⟨_, _, ⟨_, he⟩ | ⟨_, he⟩⟩ := execCall_cases f s <;> cases he.symm.trans h
  · cases eq_memoryFault_of_readTarget htarget
    exact .of_takeFault (by simp)
  · exact .of_same rfl rfl

theorem execRet_faultsAloneOrKeepsES {f : Fields} {s t : State} (h : execRet f s = .next t) :
    FaultsAloneOrKeepsES [.callStackEmpty] s t := by
  obtain ⟨_, he⟩ | ⟨_, _, _, he⟩ := execRet_cases f s <;> cases he.symm.trans h
  · exact .of_takeFault (by simp)
  · exact .of_same rfl rfl

/-- Every instruction is ULD, or raises only its faults of R263 and pops nothing from the evaluation stack. -/
theorem exec_next {i : Instr} {s t : State} (h : exec i s = .next t) :
    (∃ f, i = .uld f) ∨ FaultsAloneOrKeepsES i.mayRaise s t := by
  cases i with
  | uld f => exact .inl ⟨f, rfl⟩
  | halt f => cases h; exact .inr (.inr ⟨.inr rfl, List.prefix_refl s.es⟩)
  | add f => exact .inr (dispatchArith_faultsAloneOrKeepsES h (by simp [Instr.mayRaise]) nofun)
  | sub f => exact .inr (dispatchArith_faultsAloneOrKeepsES h (by simp [Instr.mayRaise]) nofun)
  | mul f => exact .inr (dispatchArith_faultsAloneOrKeepsES h (by simp [Instr.mayRaise]) nofun)
  | div f =>
    exact .inr (dispatchArith_faultsAloneOrKeepsES h (by simp [Instr.mayRaise]) fun _ => by simp [Instr.mayRaise])
  | mov f => exact .inr (execMov_faultsAloneOrKeepsES h)
  | ld f => exact .inr (execLd_faultsAloneOrKeepsES h)
  | bz f => exact .inr (execBz_faultsAloneOrKeepsES h)
  | swi f => exact .inr (execSwi_faultsAloneOrKeepsES h)
  | call f => exact .inr (execCall_faultsAloneOrKeepsES h)
  | ret f => exact .inr (execRet_faultsAloneOrKeepsES (f := f) h)
  | nop b f => cases h; exact .inr (.of_same rfl rfl)

/-- Only ULD stands in R263's row of StackUnderflow. -/
theorem eq_uld_of_stackUnderflow_mem_mayRaise {i : Instr} (h : .stackUnderflow ∈ i.mayRaise) : ∃ f, i = .uld f := by
  cases i with
  | uld f => exact ⟨f, rfl⟩
  | _ => simp [Instr.mayRaise] at h

/-! ## The statements -/

/-- Settles O19: on a zero divisor the unit raises the fault in place of a value to push, and `dispatchArith_next` lets
no other operation raise it. -/
theorem divisionByZeroIsDivsAlone : Obligations.DivisionByZeroIsDivsAlone := by
  unfold Obligations.DivisionByZeroIsDivsAlone
  refine ⟨fun f s a ht hs => ?divFaults, fun f s t hrunning h hfault => ?others⟩
  case divFaults =>
    have hunit : arithUnit .div a 0 = .error .divisionByZero := arithUnit_error_iff.mpr ⟨rfl, rfl, rfl⟩
    calc exec (.div f) s = finish (dispatchArith .div f s) := rfl
      _ = .next (s.takeFault .divisionByZero) := by
        rw [dispatchArith_of_readable .div ht hs, hunit, withValue_error, finish_raise]
  case others =>
    have hmemoryOnly : FaultsAloneOrKeepsES [.memoryFault] s t := by
      obtain h | h | h := h
      all_goals exact dispatchArith_faultsAloneOrKeepsES h (by simp) nofun
    simpa using hmemoryOnly.mem_of_faulted hrunning hfault

/-- Settles O25: the pop is made before the target is examined, and CT is refused in the popped state. -/
theorem uldIntoConstantLosesValue : Obligations.UldIntoConstantLosesValue := by
  unfold Obligations.UldIntoConstantLosesValue
  intro f s l v htop hct
  calc exec (.uld f) s = execUld f s := rfl
    _ = .next (({ s with es := l } : State).takeFault .invalidUnloadTarget) := by
      rw [execUld_of_concat htop, unloadInto_of_ct hct, withValue_error, finish_raise]

/-- Settles O24: `execUld_next` gives ULD's own cases, and `exec_next` excludes every other instruction. -/
theorem stackUnderflowIsUldOnEmptyStack : Obligations.StackUnderflowIsUldOnEmptyStack := by
  unfold Obligations.StackUnderflowIsUldOnEmptyStack
  refine ⟨fun f s hempty => ?emptyFaults, fun i s t hrunning h hfault => ?onlyUldRaises,
    fun i s t h hshorter => ?onlyUldPops⟩
  case emptyFaults =>
    obtain ⟨_, he⟩ | ⟨l, v, htop, _⟩ := execUld_cases f s
    · exact he
    · exact absurd (htop.symm.trans hempty) (List.concat_ne_nil v l)
  case onlyUldRaises =>
    obtain ⟨f, rfl⟩ : ∃ f, i = .uld f :=
      (exec_next h).elim id fun hother => eq_uld_of_stackUnderflow_mem_mayRaise (hother.mem_of_faulted hrunning hfault)
    obtain ⟨hempty, _⟩ | ⟨_, hstatus⟩ := execUld_next h
    · exact ⟨f, rfl, hempty⟩
    · simp [hfault, hrunning] at hstatus
  case onlyUldPops => exact (exec_next h).resolve_right fun hother => absurd hother.es_length_le (by omega)

end Sys2Proof.Machine
end

section
/-! PROOFS. Encoding of well-formed Instructions (30_encoding.md R82, R88, R91): the tags of a combination byte, and
that decoding undoes encoding. -/

namespace Sys2Proof

/-! ## Operand kinds and combination bytes (R85 to R88) -/

theorem Operand.mode_le_six (o : Operand) : o.mode ≤ 6 := by
  cases o with
  | reg r => cases r <;> decide
  | _ => decide

/-- The tag of an operand kind's mode number is that kind (R86). -/
@[simp] theorem tagOfMode_mode (o : Operand) : tagOfMode o.mode = o := by
  cases o with
  | reg r => cases r <;> rfl
  | _ => rfl

/-- The fallback of R87. -/
theorem tagOfMode_of_seven_le {m : Nat} (h : 7 ≤ m) : tagOfMode m = .reg .r1 := by
  unfold tagOfMode
  split
  case h_8 => rfl
  all_goals omega

/-- A combination byte past the table has target R1 (D10). -/
theorem resolveTarget_of_49_le {comb : Byte} (h : 49 ≤ comb.toNat) : resolveTarget comb = .reg .r1 :=
  tagOfMode_of_seven_le (by omega)

theorem mode_resolveSource (comb : Byte) : (resolveSource comb).mode = comb.toNat % 7 :=
  mode_tagOfMode (by omega)

theorem mode_resolveTarget {comb : Byte} (h : comb.toNat ≤ 48) : (resolveTarget comb).mode = comb.toNat / 7 :=
  mode_tagOfMode (by omega)

/-- A byte with a pair's entry in R88's table resolves to that pair. -/
theorem resolve_of_toNat_eq {comb : Byte} {t u : Operand} (h : comb.toNat = 7 * t.mode + u.mode) :
    resolveTarget comb = t ∧ resolveSource comb = u := by
  have hu : u.mode ≤ 6 := u.mode_le_six
  have hquotient : comb.toNat / 7 = t.mode := by omega
  have hremainder : comb.toNat % 7 = u.mode := by omega
  exact ⟨by rw [resolveTarget, hquotient, tagOfMode_mode], by rw [resolveSource, hremainder, tagOfMode_mode]⟩

theorem toNat_combOf (t u : Operand) : (combOf t u).toNat = 7 * t.mode + u.mode := by
  have ht : t.mode ≤ 6 := t.mode_le_six
  have hu : u.mode ≤ 6 := u.mode_le_six
  rw [combOf, BitVec.toNat_ofNat]
  omega

/-- Fields are well-formed exactly when their tags are those the decoder takes from the combination byte. -/
theorem Fields.wf_iff (f : Fields) : f.wf = true ↔ f.tgt = resolveTarget f.comb ∧ f.src = resolveSource f.comb := by
  have hsource : f.comb.toNat % 7 = f.src.mode ↔ f.src = resolveSource f.comb := by
    constructor
    · intro h
      rw [resolveSource, h, tagOfMode_mode]
    · intro h
      rw [h, mode_resolveSource]
  unfold Fields.wf
  split
  case isTrue hsmall =>
    rw [beq_iff_eq]
    constructor
    · intro h
      obtain ⟨ht, hu⟩ := resolve_of_toNat_eq h
      exact ⟨ht.symm, hu.symm⟩
    · rintro ⟨ht, hu⟩
      rw [ht, hu, mode_resolveTarget hsmall, mode_resolveSource]
      omega
  case isFalse hlarge =>
    rw [resolveTarget_of_49_le (by omega), Bool.and_eq_true, beq_iff_eq, beq_iff_eq, hsource]

/-- Settles O4: past the table the quotient by 7 is no mode number, the remainder still is one. -/
theorem largeCombinationByteTargetsR1 : Obligations.LargeCombinationByteTargetsR1 := by
  unfold Obligations.LargeCombinationByteTargetsR1
  exact fun comb h => ⟨resolveTarget_of_49_le h, mode_resolveSource comb⟩

/-- Settles O5: `toNat_combOf` is the table's entry, which division by 7 takes apart and joins again. -/
theorem combinationBytePairsAreABijection : Obligations.CombinationBytePairsAreABijection := by
  unfold Obligations.CombinationBytePairsAreABijection
  refine ⟨fun t u => ?pairBack, fun comb h => ?byteBack⟩
  case pairBack =>
    obtain ⟨ht, hu⟩ := resolve_of_toNat_eq (toNat_combOf t u)
    have htmode : t.mode ≤ 6 := t.mode_le_six
    have humode : u.mode ≤ 6 := u.mode_le_six
    exact ⟨ht, hu, by rw [toNat_combOf]; omega⟩
  case byteBack =>
    apply BitVec.eq_of_toNat_eq
    rw [toNat_combOf, mode_resolveTarget h, mode_resolveSource]
    omega

/-! ## Instructions -/

/-- The fields the decoder makes are those it was given where the tags are the byte's. -/
theorem makeFields_of_wf {f : Fields} (h : f.wf = true) : makeFields f.comb f.timm f.simm = f := by
  obtain ⟨ht, hu⟩ := f.wf_iff.mp h
  rw [makeFields, ← ht, ← hu]

theorem makeFields_wf (comb : Byte) (timm simm : Word) : (makeFields comb timm simm).wf = true :=
  (Fields.wf_iff _).mpr ⟨rfl, rfl⟩

theorem Instr.fields_wf {i : Instr} (h : i.wf = true) : i.fields.wf = true := by
  cases i with
  | nop b f => exact (Bool.and_eq_true_iff.mp h).2
  | _ => exact h

/-- The opcode byte of a well-formed Instruction selects its own class (R83, R84). -/
theorem classify_opbyte_fields {i : Instr} (h : i.wf = true) : classify i.opbyte i.fields = i := by
  cases i with
  | nop b f => exact Laws.ClassifiedBack.nop b f h
  | _ => rfl

/-- Classifying well-formed fields gives a well-formed Instruction, whatever the opcode byte. -/
theorem classify_wf {b : Byte} {f : Fields} (h : f.wf = true) : (classify b f).wf = true := by
  unfold classify
  split
  case h_13 =>
    have hunassigned : 0x0C ≤ b.toNat := by
      simp only [imp_false] at *
      omega
    simp [Instr.wf, nopByteOk, hunassigned, h]
  all_goals exact h

/-- The raw fields of an encoded word are the Instruction's own, so decoding it classifies them. -/
theorem decode_encode {i : Instr} (h : i.wf = true) : decode (encode i) = i := by
  rw [decode, encode, wordOpbyte_encodeRaw, wordComb_encodeRaw, wordTimm_encodeRaw, wordSimm_encodeRaw,
    makeFields_of_wf (Instr.fields_wf h), classify_opbyte_fields h]

/-- Joining the six bytes of a word gives the word back (R52, R81). -/
theorem decodeBytes_wordBytes (w : InstrWord) : decodeBytes (wordBytes w) = .ok (decode w, []) := by
  have hbytes2 : w.extractLsb' 40 8 ++ w.extractLsb' 32 8 = w.extractLsb' 32 16 :=
    BitVec.extractLsb'_append_extractLsb'_eq_extractLsb' rfl
  have hbytes3 : w.extractLsb' 32 16 ++ w.extractLsb' 24 8 = w.extractLsb' 24 24 :=
    BitVec.extractLsb'_append_extractLsb'_eq_extractLsb' rfl
  have hbytes4 : w.extractLsb' 24 24 ++ w.extractLsb' 16 8 = w.extractLsb' 16 32 :=
    BitVec.extractLsb'_append_extractLsb'_eq_extractLsb' rfl
  have hbytes5 : w.extractLsb' 16 32 ++ w.extractLsb' 8 8 = w.extractLsb' 8 40 :=
    BitVec.extractLsb'_append_extractLsb'_eq_extractLsb' rfl
  have hbytes6 : w.extractLsb' 8 40 ++ w.extractLsb' 0 8 = w.extractLsb' 0 48 :=
    BitVec.extractLsb'_append_extractLsb'_eq_extractLsb' rfl
  rw [wordBytes, decodeBytes, joinBytes, hbytes2, hbytes3, hbytes4, hbytes5, hbytes6, BitVec.extractLsb'_eq_self]

/-- Settles O8, from the round trip of words and the six bytes of a word. -/
theorem decodeOfEncodeIsIdentity : Obligations.DecodeOfEncodeIsIdentity := by
  unfold Obligations.DecodeOfEncodeIsIdentity
  exact fun i h => ⟨decode_encode h, by rw [encodeBytes, decodeBytes_wordBytes, decode_encode h]⟩

/-- Settles O7: the decoder makes its own fields, and these are well-formed. -/
theorem decodedInstructionsAreWellFormed : Obligations.DecodedInstructionsAreWellFormed := by
  unfold Obligations.DecodedInstructionsAreWellFormed
  exact fun w => classify_wf (makeFields_wf _ _ _)

/-- Settles O1, by running the decoder on the nine words. -/
theorem writtenWordsDecode : Obligations.WrittenWordsDecode := by
  unfold Obligations.WrittenWordsDecode
  decide

end Sys2Proof
end

section
/-! PROOFS. Everything the execution of an Instruction can do to a state (40_execution_cycle.md R116 to R123), as one
relation: what follows about steps in general is read off its constructors. -/

namespace Sys2Proof.Machine

open Sys2Proof

/-! ## The relation -/

/-- The Instruction reads an operand of kind MA whose word would pass the end of memory (R247). -/
def ReadsPastMemory (i : Instr) : Prop :=
  (i.readsTarget = true ∧ i.fields.tgt = .ma ∧ i.fields.timm = 0xFFFF) ∨
    (i.readsSource = true ∧ i.fields.src = .ma ∧ i.fields.simm = 0xFFFF)

/-- The answers an Instruction can give at a state, by the way its dispatch ends. -/
inductive Effect (s : State) : Instr → Host.Outcome State Fault Refusal → Prop where
  /-- A fault that changes the status alone. -/
  | raised {i : Instr} {k : FaultKind} (hlisted : k ∈ i.mayRaise) (hmemory : k = .memoryFault → ReadsPastMemory i) :
      Effect s i (.next (s.takeFault k))
  /-- A fault of ULD after its pop (R162). -/
  | popLost {f : Fields} {l : List Word} {v : Word} {k : FaultKind} (htop : s.es = l ++ [v])
      (hkind : f.tgt = .ct ∧ k = .invalidUnloadTarget ∨ f.tgt = .ma ∧ f.timm = 0xFFFF ∧ k = .memoryFault) :
      Effect s (.uld f) (.next (({ s with es := l } : State).takeFault k))
  | halted (f : Fields) : Effect s (.halt f) (.next { s with status := .halted })
  | pushed {i : Instr} {f : Fields} (v : Word) (hclass : i ∈ [Instr.add f, .sub f, .mul f, .div f, .ld f])
      (hroom : hasRoom s.cfg.esDepth s.es.length = true) :
      Effect s i (.next { s with es := s.es ++ [v], pc := nextSequential s.pc })
  | moved {f : Fields} {r : Reg} (v : Word) (htarget : f.tgt = .reg r) :
      Effect s (.mov f) (.next { s.setReg r v with pc := nextSequential s.pc })
  /-- Only `pc` changes: MOV into IP, BZ, NOP. -/
  | continued {i : Instr} {b : Byte} {f : Fields} (p : Word) (hclass : i ∈ [Instr.mov f, .bz f, .nop b f]) :
      Effect s i (.next { s with pc := p })
  | unloaded {f : Fields} {r : Reg} {l : List Word} {v : Word} (htop : s.es = l ++ [v]) (htarget : f.tgt = .reg r) :
      Effect s (.uld f) (.next { ({ s with es := l } : State).setReg r v with pc := nextSequential s.pc })
  | unloadedIp {f : Fields} {l : List Word} {v : Word} (htop : s.es = l ++ [v]) :
      Effect s (.uld f) (.next { s with es := l, pc := nextSequential v })
  | stored {f : Fields} {l : List Word} {v : Word} {m : Memory} (htop : s.es = l ++ [v]) (htarget : f.tgt = .ma)
      (hstore : memWrite16 s.mem f.timm v = .ok m) :
      Effect s (.uld f) (.next { s with es := l, mem := m, pc := nextSequential s.pc })
  | printed {f : Fields} (text : List Char) :
      Effect s (.swi f) (.next { s with console := s.console ++ text, pc := nextSequential s.pc })
  | called {f : Fields} (p : Word) (hroom : hasRoom s.cfg.csDepth s.cs.length = true) :
      Effect s (.call f) (.next { s with cs := s.cs ++ [nextSequential s.pc], pc := p })
  | returned {f : Fields} {l : List Word} {r : Word} (htop : s.cs = l ++ [r]) :
      Effect s (.ret f) (.next { s with cs := l, pc := r })
  | refusedES {i : Instr} (hfull : hasRoom s.cfg.esDepth s.es.length = false) :
      Effect s i (.refused .evaluationStackFull)
  | refusedCS {i : Instr} (hfull : hasRoom s.cfg.csDepth s.cs.length = false) : Effect s i (.refused .callStackFull)

/-! ## Every Instruction's answer is one of these -/

/-- A fault of the target operand, where the Instruction reads it. -/
theorem Effect.of_readTarget_error {i : Instr} {s : State} {k : FaultKind} (h : readTarget i.fields s = .error k)
    (hreads : i.readsTarget = true) (hlisted : .memoryFault ∈ i.mayRaise) : Effect s i (.next (s.takeFault k)) := by
  obtain ⟨hma, himm, rfl⟩ := readOperand_error_iff.mp h
  exact .raised hlisted fun _ => .inl ⟨hreads, hma, himm⟩

/-- A fault of the source operand, where the Instruction reads it. -/
theorem Effect.of_readSource_error {i : Instr} {s : State} {k : FaultKind} (h : readSource i.fields s = .error k)
    (hreads : i.readsSource = true) (hlisted : .memoryFault ∈ i.mayRaise) : Effect s i (.next (s.takeFault k)) := by
  obtain ⟨hma, himm, rfl⟩ := readOperand_error_iff.mp h
  exact .raised hlisted fun _ => .inr ⟨hreads, hma, himm⟩

/-- The four arithmetic Instructions; the last hypothesis is that of DIV. -/
theorem dispatchArith_effect {op : ArithOp} {i : Instr} (s : State)
    (hclass : i ∈ [Instr.add i.fields, .sub i.fields, .mul i.fields, .div i.fields, .ld i.fields])
    (htarget : i.readsTarget = true) (hsource : i.readsSource = true) (hmemory : .memoryFault ∈ i.mayRaise)
    (hdiv : op = .div → .divisionByZero ∈ i.mayRaise) : Effect s i (finish (dispatchArith op i.fields s)) := by
  obtain ⟨k, hraised, he⟩ | ⟨_, _, r, _, _, _, ⟨hroom, he⟩ | ⟨hfull, he⟩⟩ := 
    dispatchArith_cases op i.fields s <;> rw [he]
  · obtain h | ⟨_, _, h⟩ | ⟨_, _, _, _, h⟩ := hraised
    · exact .of_readTarget_error h htarget hmemory
    · exact .of_readSource_error h hsource hmemory
    · obtain ⟨hop, _, rfl⟩ := arithUnit_error_iff.mp h
      exact .raised (hdiv hop) nofun
  · exact .pushed r hclass hroom
  · exact .refusedES hfull

theorem execMov_effect (f : Fields) (s : State) : Effect s (.mov f) (execMov f s) := by
  obtain ⟨k, h, he⟩ | ⟨v, _, ⟨r, hreg, he⟩ | ⟨_, he⟩ | ⟨_, he⟩⟩ := execMov_cases f s <;> rw [he]
  · exact .of_readSource_error h rfl (by simp [Instr.mayRaise])
  · exact .moved v hreg
  · exact .continued (b := 0) (f := f) _ (by simp)
  · exact .raised (by simp [Instr.mayRaise]) nofun

theorem execLd_effect (f : Fields) (s : State) : Effect s (.ld f) (execLd f s) := by
  obtain ⟨k, h, he⟩ | ⟨v, _, ⟨hroom, he⟩ | ⟨hfull, he⟩⟩ := execLd_cases f s <;> rw [he]
  · exact .of_readTarget_error h rfl (by simp [Instr.mayRaise])
  · exact .pushed (f := f) v (by simp) hroom
  · exact .refusedES hfull

theorem execUld_effect (f : Fields) (s : State) : Effect s (.uld f) (execUld f s) := by
  obtain ⟨_, he⟩ | ⟨l, v, htop, hdone⟩ := execUld_cases f s
  · rw [he]
    exact .raised (by simp [Instr.mayRaise]) nofun
  · obtain ⟨r, hreg, he⟩ | ⟨_, he⟩ | ⟨hct, he⟩ | ⟨hma, himm, he⟩ | ⟨hma, _, m, hstore, he⟩ := hdone <;>
      rw [he]
    · exact .unloaded htop hreg
    · exact .unloadedIp htop
    · exact .popLost htop (.inl ⟨hct, rfl⟩)
    · exact .popLost htop (.inr ⟨hma, himm, rfl⟩)
    · exact .stored htop hma hstore

theorem execBz_effect (f : Fields) (s : State) : Effect s (.bz f) (execBz f s) := by
  obtain ⟨k, hraised, he⟩ | ⟨_, _, _, _, ⟨_, he⟩ | ⟨_, he⟩⟩ := execBz_cases f s <;> rw [he]
  · obtain h | ⟨_, _, h⟩ := hraised
    · exact .of_readTarget_error h rfl (by simp [Instr.mayRaise])
    · exact .of_readSource_error h rfl (by simp [Instr.mayRaise])
  · exact .continued (b := 0) (f := f) _ (by simp)
  · exact .continued (b := 0) (f := f) _ (by simp)

theorem execSwi_effect (f : Fields) (s : State) : Effect s (.swi f) (execSwi f s) := by
  obtain ⟨_, he⟩ | ⟨_, he⟩ | ⟨_, he⟩ := execSwi_cases f s <;> rw [he]
  · exact .printed _
  · exact .printed _
  · exact .raised (by simp [Instr.mayRaise]) nofun

theorem execCall_effect (f : Fields) (s : State) : Effect s (.call f) (execCall f s) := by
  obtain ⟨k, h, he⟩ | ⟨p, _, ⟨hroom, he⟩ | ⟨hfull, he⟩⟩ := execCall_cases f s <;> rw [he]
  · exact .of_readTarget_error h rfl (by simp [Instr.mayRaise])
  · exact .called p hroom
  · exact .refusedCS hfull

theorem execRet_effect (f : Fields) (s : State) : Effect s (.ret f) (execRet f s) := by
  obtain ⟨_, he⟩ | ⟨_, _, htop, he⟩ := execRet_cases f s <;> rw [he]
  · exact .raised (by simp [Instr.mayRaise]) nofun
  · exact .returned htop

/-- The answer of every Instruction at every state is one of the relation's. -/
theorem exec_effect (i : Instr) (s : State) : Effect s i (exec i s) := by
  cases i with
  | halt f => exact .halted f
  | add f => exact dispatchArith_effect (op := .add) s (by simp [Instr.fields]) rfl rfl (by simp [Instr.mayRaise]) nofun
  | sub f => exact dispatchArith_effect (op := .sub) s (by simp [Instr.fields]) rfl rfl (by simp [Instr.mayRaise]) nofun
  | mul f => exact dispatchArith_effect (op := .mul) s (by simp [Instr.fields]) rfl rfl (by simp [Instr.mayRaise]) nofun
  | div f =>
    exact dispatchArith_effect (op := .div) s (by simp [Instr.fields]) rfl rfl (by simp [Instr.mayRaise]) fun _ => by
      simp [Instr.mayRaise]
  | mov f => exact execMov_effect f s
  | ld f => exact execLd_effect f s
  | uld f => exact execUld_effect f s
  | bz f => exact execBz_effect f s
  | swi f => exact execSwi_effect f s
  | call f => exact execCall_effect f s
  | ret f => exact execRet_effect f s
  | nop b f => exact .continued (b := b) (f := f) _ (by simp)

/-- A step that answers a next state took a fault of the fetch, or had an effect of the fetched Instruction after its
trace line. -/
theorem step_effect {s t : State} (h : step s = .next t) :
    s.status = .running ∧
      ((∃ k, fetchInstr s = .error k ∧ t = s.takeFault k) ∨
        (∃ i, fetchInstr s = .ok i ∧ Effect (s.emitTrace i) i (.next t))) := by
  obtain ⟨hrunning, hfetch | ⟨i, hi, he⟩⟩ := step_next h
  · exact ⟨hrunning, .inl hfetch⟩
  · exact ⟨hrunning, .inr ⟨i, hi, he ▸ exec_effect i (s.emitTrace i)⟩⟩

/-! ## What every effect keeps -/

section Kept
variable {s t : State} {i : Instr}

theorem Effect.cfg_eq (h : Effect s i (.next t)) : t.cfg = s.cfg := by
  cases h
  case moved v _ => exact State.setReg_cfg s _ v
  case unloaded l v _ _ => exact State.setReg_cfg { s with es := l } _ v
  all_goals rfl

theorem Effect.trace_eq (h : Effect s i (.next t)) : t.trace = s.trace := by
  cases h
  case moved v _ => exact State.setReg_trace s _ v
  case unloaded l v _ _ => exact State.setReg_trace { s with es := l } _ v
  all_goals rfl

end Kept

theorem State.wf_iff (s : State) :
    s.wf = true ↔ s.mem.wf = true ∧ withinCapacity s.cfg.esDepth s.es.length = true ∧
      withinCapacity s.cfg.csDepth s.cs.length = true := by
  rw [State.wf, Bool.and_eq_true, Bool.and_eq_true, and_assoc]

/-- A stack within its capacity is so without its top. -/
theorem withinCapacity_pop {c : Option Nat} {l : List Word} {v : Word} {n : Nat} (h : withinCapacity c n = true)
    (hn : n = (l ++ [v]).length) : withinCapacity c l.length = true :=
  withinCapacity_mono h (by rw [hn, List.length_append]; omega)

/-- The invariant is kept: memory changes by a store alone, a stack grows only where it has room. -/
theorem Effect.wf {s t : State} {i : Instr} (h : Effect s i (.next t)) (hwf : s.wf = true) : t.wf = true := by
  obtain ⟨hmem, hes, hcs⟩ := s.wf_iff.mp hwf
  rw [State.wf_iff]
  cases h
  case popLost htop _ => exact ⟨hmem, withinCapacity_pop hes (congrArg _ htop), hcs⟩
  case pushed hroom _ => exact ⟨hmem, withinCapacity_push hroom, hcs⟩
  case moved => simpa using And.intro hmem ⟨hes, hcs⟩
  case unloaded htop _ => simpa using And.intro hmem ⟨withinCapacity_pop hes (congrArg _ htop), hcs⟩
  case unloadedIp htop => exact ⟨hmem, withinCapacity_pop hes (congrArg _ htop), hcs⟩
  case stored htop _ hstore => exact ⟨memWrite16_wf hmem hstore, withinCapacity_pop hes (congrArg _ htop), hcs⟩
  case called hroom => exact ⟨hmem, hes, withinCapacity_push hroom⟩
  case returned htop => exact ⟨hmem, hes, withinCapacity_pop hcs (congrArg _ htop)⟩
  all_goals exact ⟨hmem, hes, hcs⟩

/-- The trace line is no part of the invariant. -/
theorem State.emitTrace_wf (s : State) (i : Instr) : (s.emitTrace i).wf = s.wf := by
  simp [State.wf]

/-- Settles O59: a fault of the fetch touches no part of the invariant, and every effect keeps it. -/
theorem stepKeepsInvariant : Obligations.StepKeepsInvariant := by
  unfold Obligations.StepKeepsInvariant
  intro s t hwf h
  obtain ⟨_, ⟨k, _, rfl⟩ | ⟨i, _, he⟩⟩ := step_effect h
  · exact hwf
  · exact he.wf ((s.emitTrace_wf i).trans hwf)

/-- Settles O60: the memory of an image is canonical, and an empty stack is within every capacity. -/
theorem startStatesMeetInvariant : Obligations.StartStatesMeetInvariant := by
  unfold Obligations.StartStatesMeetInvariant
  have hempty (c : Option Nat) : withinCapacity c 0 = true := by cases c <;> simp [withinCapacity]
  refine ⟨rfl, fun cfg image s h => ?_⟩
  by_cases hfits : image.length ≤ 65536
  · rw [State.start_of_length_le hfits] at h
    cases h
    exact (State.wf_iff _).mpr ⟨Memory.ofImage_wf hfits, hempty _, hempty _⟩
  · rw [State.start, if_neg hfits] at h
    cases h

/-- Settles O58: every effect and the host's resume leave the configuration. -/
theorem configurationIsStatic : Obligations.ConfigurationIsStatic := by
  unfold Obligations.ConfigurationIsStatic
  rintro s t (h | h)
  · obtain ⟨_, ⟨k, _, rfl⟩ | ⟨i, _, he⟩⟩ := step_effect h
    · rfl
    · exact he.cfg_eq.trans (s.emitTrace_cfg i)
  · unfold State.resume at h
    split at h
    · split at h <;> cases h
      rfl
    · cases h
    · cases h

/-- Settles O55: an effect leaves the trace, so the line is the one `emitTrace` appends. -/
theorem traceLinePerDispatch : Obligations.TraceLinePerDispatch := by
  unfold Obligations.TraceLinePerDispatch
  intro s t h
  obtain ⟨_, ⟨k, hfetch, rfl⟩ | ⟨i, hfetch, he⟩⟩ := step_effect h
  · refine ⟨fun _ => rfl, fun _ _ => rfl, fun i hi => ?_⟩
    cases hfetch.symm.trans hi
  · have htrace := he.trace_eq.trans (s.emitTrace_trace i)
    refine ⟨fun hoff => by simpa [hoff] using htrace, fun k hk => ?_, fun j hj hon => ?_⟩
    · cases hfetch.symm.trans hk
    · cases hfetch.symm.trans hj
      simpa [hon] using htrace

end Sys2Proof.Machine
end

section
/-! PROOFS. Memory and operands (20_memory.md R50 to R53, 40_execution_cycle.md R114): the bytes after a store, that a
canonical memory is nothing but its bytes, the values operands read, and the reset and load states. -/

namespace Sys2Proof.Machine

open Sys2Proof

/-! ## Stores (R53) -/

/-- Every address but the last takes a 16-bit store. -/
theorem exists_memWrite16_ok {a : Word} (h : a ≠ 0xFFFF) (m : Memory) (v : Word) : ∃ m', memWrite16 m a v = .ok m' := by
  obtain ⟨hmax, _⟩ | ⟨_, hstore⟩ := memWrite16_cases m a v
  · exact absurd hmax h
  · exact ⟨_, hstore⟩

theorem memWrite16_max (m : Memory) (v : Word) : memWrite16 m 0xFFFF v = .error .memoryFault := rfl

/-- The bytes after a 16-bit store in canonical memory: high byte first, all others as before. -/
theorem memWrite16_read {m m' : Memory} {a v : Word} (h : m.wf = true) (hw : memWrite16 m a v = .ok m') (x : Nat) :
    m'.read x = if x = a.toNat then v.extractLsb' 8 8 else if x = a.toNat + 1 then v.extractLsb' 0 8 else m.read x := by
  obtain ⟨_, hfault⟩ | ⟨_, hstore⟩ := memWrite16_cases m a v
  · cases hfault.symm.trans hw
  · cases hstore.symm.trans hw
    rw [Memory.write_read (Memory.write_wf h a.isLt), Memory.write_read h]
    by_cases hlow : x = a.toNat + 1
    · simp [hlow]
    · simp [hlow]

/-- Settles O13, from the bytes after a store and the word read back from them. -/
theorem storeThenLoadReturnsValue : Obligations.StoreThenLoadReturnsValue := by
  unfold Obligations.StoreThenLoadReturnsValue
  refine ⟨fun m a v h ha => ?_, memWrite16_max⟩
  obtain ⟨m', hw⟩ := exists_memWrite16_ok ha m v
  have hread := memWrite16_read h hw
  exact ⟨m', hw, memWrite16_wf h hw, memRead16_of_memWrite16 h hw, by simp [hread], by simp [hread],
    fun x hx hx' => by simp [hread, hx, hx']⟩

/-! ## Canonical form (R50) -/

/-- The first pair of a canonical memory is read at its address. -/
theorem Memory.read_cons_self (a : Nat) (b : Byte) (m : Memory) : Memory.read ((a, b) :: m) a = b := if_pos rfl

theorem Memory.read_cons_of_ne {a x : Nat} (h : x ≠ a) (b : Byte) (m : Memory) :
    Memory.read ((a, b) :: m) x = m.read x := if_neg h

/-- No canonical memory begins below another that holds the same bytes: the first pair's byte would read as unlisted
there. -/
theorem Memory.not_lt_of_read_eq {lo a : Nat} {b : Byte} {m m' : Memory} (h : Memory.wfFrom lo ((a, b) :: m) = true)
    {lo' : Nat} (h' : Memory.wfFrom lo' m' = true) (heq : ∀ x, x < 65536 → Memory.read ((a, b) :: m) x = m'.read x) :
    ¬ a < lo' := by
  intro hlt
  obtain ⟨_, ha, hlisted, _⟩ := Memory.wfFrom_cons.mp h
  refine hlisted ?_
  calc b = Memory.read ((a, b) :: m) a := (Memory.read_cons_self a b m).symm
    _ = m'.read a := heq a ha
    _ = Memory.unlisted := Memory.read_below h' hlt

/-- Canonical memories with the same bytes are the same list. -/
theorem Memory.eq_of_read_eq {lo lo' : Nat} {m m' : Memory} (h : Memory.wfFrom lo m = true)
    (h' : Memory.wfFrom lo' m' = true) (heq : ∀ x, x < 65536 → m.read x = m'.read x) : m = m' := by
  induction m generalizing lo lo' m' with
  | nil =>
    cases m' with
    | nil => rfl
    | cons p' m' =>
      have hempty : Memory.wfFrom (p'.1 + 1) [] = true := rfl
      exact absurd (Nat.lt_succ_self _) (Memory.not_lt_of_read_eq h' hempty fun x hx => (heq x hx).symm)
  | cons p m ih =>
    obtain ⟨a, b⟩ := p
    obtain ⟨_, ha, _, htail⟩ := Memory.wfFrom_cons.mp h
    cases m' with
    | nil =>
      have hempty : Memory.wfFrom (a + 1) [] = true := rfl
      exact absurd (Nat.lt_succ_self _) (Memory.not_lt_of_read_eq h hempty heq)
    | cons p' m' =>
      obtain ⟨a', b'⟩ := p'
      obtain ⟨_, _, _, htail'⟩ := Memory.wfFrom_cons.mp h'
      have hge : ¬ a < a' :=
        Memory.not_lt_of_read_eq h (Memory.wfFrom_cons.mpr ⟨le_rfl, (Memory.wfFrom_cons.mp h').2⟩) heq
      have hle : ¬ a' < a :=
        Memory.not_lt_of_read_eq h' (Memory.wfFrom_cons.mpr ⟨le_rfl, (Memory.wfFrom_cons.mp h).2⟩)
          fun x hx => (heq x hx).symm
      obtain rfl : a = a' := by omega
      obtain rfl : b = b' := by simpa [Memory.read_cons_self] using heq a ha
      refine congrArg _ (ih htail htail' fun x hx => ?_)
      by_cases hxa : x ≤ a
      · rw [Memory.read_below htail (by omega), Memory.read_below htail' (by omega)]
      · simpa [Memory.read_cons_of_ne (show x ≠ a by omega)] using heq x hx

/-- Settles O14, by induction on both lists. -/
theorem canonicalMemoryIsItsBytes : Obligations.CanonicalMemoryIsItsBytes := by
  unfold Obligations.CanonicalMemoryIsItsBytes
  exact fun m m' h h' heq => Memory.eq_of_read_eq h h' heq

/-! ## Operands (R114) -/

/-- Two bytes joined are a big-endian number. -/
theorem toNat_append_bytes (h l : Byte) : (h ++ l).toNat = h.toNat * 256 + l.toNat := by
  rw [BitVec.toNat_append, ← Nat.shiftLeft_add_eq_or_of_lt l.isLt, Nat.shiftLeft_eq]

/-- Settles O12: six modes answer by their definition, and MA is the two bytes of its word or faults at 0xFFFF. -/
theorem operandReadByMode : Obligations.OperandReadByMode := by
  unfold Obligations.OperandReadByMode
  intro imm s
  refine ⟨rfl, rfl, rfl, rfl, rfl, rfl, fun hmax => readOperand_error_iff.mpr ⟨rfl, hmax, rfl⟩, fun himm => ?_⟩
  obtain ⟨hmax, _⟩ | ⟨_, hread⟩ := memRead16_cases s.mem imm
  · exact absurd hmax himm
  · exact ⟨_, hread, toNat_append_bytes _ _⟩

/-! ## Reset and load (R37 to R41) -/

/-- Settles O9: each field of the reset state is given by its definition. -/
theorem resetState : Obligations.ResetState := by
  unfold Obligations.ResetState
  exact ⟨fun _ => rfl, rfl, fun r => by cases r <;> rfl, rfl, rfl, rfl, rfl, rfl, rfl⟩

/-- Settles O11, by the two cases of the image's length. -/
theorem loadLeavesTheRestAtReset : Obligations.LoadLeavesTheRestAtReset := by
  unfold Obligations.LoadLeavesTheRestAtReset
  intro cfg image
  by_cases hfits : image.length ≤ 65536
  · exact .inl ⟨hfits, _, State.start_of_length_le hfits⟩
  · exact .inr ⟨by omega, if_neg hfits⟩

end Sys2Proof.Machine
end

section
/-! PROOFS. What each Instruction does where its operands can be read, and where one cannot (41_arithmetic.md to
44_system.md, 60_exceptions.md R250): the whole next state. -/

namespace Sys2Proof.Machine

open Sys2Proof

/-! ## Pushes (R30) -/

theorem pushAndAdvance_of_hasRoom {s : State} (h : hasRoom s.cfg.esDepth s.es.length = true) (v : Word) :
    pushAndAdvance s v = .sequential { s with es := s.es ++ [v] } := by
  obtain ⟨_, he⟩ | ⟨hfull, _⟩ := pushAndAdvance_cases s v
  · exact he
  · cases h.symm.trans hfull

theorem pushAndAdvance_of_full {s : State} (h : hasRoom s.cfg.esDepth s.es.length = false) (v : Word) :
    pushAndAdvance s v = .refuse .evaluationStackFull := by
  obtain ⟨hroom, _⟩ | ⟨_, he⟩ := pushAndAdvance_cases s v
  · cases h.symm.trans hroom
  · exact he

/-- A stack at its finite capacity has no room. -/
theorem hasRoom_of_le {c : Option Nat} {d n : Nat} (hc : c = some d) (hd : d ≤ n) : hasRoom c n = false := by
  simp [hc, hasRoom, hd]

/-! ## Operand faults (R250) -/

section OperandFaults
variable {f : Fields} {s : State} {k : FaultKind}

/-- Reading the target comes first wherever it is read (D20). -/
theorem exec_of_readTarget_error {i : Instr} (hreads : i.readsTarget = true) (h : readTarget i.fields s = .error k) :
    exec i s = .next (s.takeFault k) := by
  have harith (op : ArithOp) (f : Fields) (h : readTarget f s = .error k) :
      finish (dispatchArith op f s) = .next (s.takeFault k) := by
    rw [dispatchArith, h, withValue_error, finish_raise]
  cases i with
  | add f => exact harith .add f h
  | sub f => exact harith .sub f h
  | mul f => exact harith .mul f h
  | div f => exact harith .div f h
  | ld f => rw [exec, execLd, show readTarget f s = _ from h, withValue_error, finish_raise]
  | bz f => rw [exec, execBz, show readTarget f s = _ from h, withValue_error, finish_raise]
  | call f => rw [exec, execCall, show readTarget f s = _ from h, withValue_error, finish_raise]
  | _ => cases hreads

/-- Reading the source comes next, with the target read or not used. -/
theorem exec_of_readSource_error {i : Instr} (hreads : i.readsSource = true)
    (htarget : i.readsTarget = true → ∃ a, readTarget i.fields s = .ok a) (h : readSource i.fields s = .error k) :
    exec i s = .next (s.takeFault k) := by
  have harith (op : ArithOp) (f : Fields) (ht : ∃ a, readTarget f s = .ok a) (h : readSource f s = .error k) :
      finish (dispatchArith op f s) = .next (s.takeFault k) := by
    obtain ⟨a, ha⟩ := ht
    rw [dispatchArith, ha, withValue_ok, h, withValue_error, finish_raise]
  cases i with
  | add f => exact harith .add f (htarget rfl) h
  | sub f => exact harith .sub f (htarget rfl) h
  | mul f => exact harith .mul f (htarget rfl) h
  | div f => exact harith .div f (htarget rfl) h
  | mov f => rw [exec, execMov, show readSource f s = _ from h, withValue_error, finish_raise]
  | bz f =>
    obtain ⟨a, ha⟩ := htarget rfl
    rw [exec, execBz, show readTarget f s = _ from ha, withValue_ok, show readSource f s = _ from h, withValue_error,
      finish_raise]
  | _ => cases hreads

end OperandFaults

/-- Settles O36: each Instruction listed reads the operand that faults. -/
theorem operandFaultsEndTheInstruction : Obligations.OperandFaultsEndTheInstruction := by
  unfold Obligations.OperandFaultsEndTheInstruction
  refine fun f s k => ⟨fun h i hi => ?target, fun h => ⟨?mov, fun a ha i hi => ?source⟩⟩
  case target =>
    have hi : i.readsTarget = true ∧ i.fields = f := by
      revert i
      simp [Instr.readsTarget, Instr.fields]
    exact exec_of_readTarget_error hi.1 (hi.2.symm ▸ h)
  case mov => exact exec_of_readSource_error rfl nofun h
  case source =>
    have hi : i.readsSource = true ∧ i.fields = f := by
      revert i
      simp [Instr.readsSource, Instr.fields]
    exact exec_of_readSource_error hi.1 (fun _ => ⟨a, hi.2.symm ▸ ha⟩) (hi.2.symm ▸ h)

/-! ## Arithmetic (R141 to R144) -/

section Arithmetic
variable {f : Fields} {s : State} {a b r : Word} {op : ArithOp}

/-- With both operands read, room on the stack and an answer of the unit, that answer is pushed. -/
theorem finish_dispatchArith_of_hasRoom (ht : readTarget f s = .ok a) (hs : readSource f s = .ok b)
    (hr : arithUnit op a b = .ok r) (hroom : hasRoom s.cfg.esDepth s.es.length = true) :
    finish (dispatchArith op f s) = .next { s with es := s.es ++ [r], pc := s.pc + 6 } := by
  rw [dispatchArith_of_readable op ht hs, hr, withValue_ok, pushAndAdvance_of_hasRoom hroom]
  rfl

/-- The same on a full stack. -/
theorem finish_dispatchArith_of_full (ht : readTarget f s = .ok a) (hs : readSource f s = .ok b)
    (hr : arithUnit op a b = .ok r) (hfull : hasRoom s.cfg.esDepth s.es.length = false) :
    finish (dispatchArith op f s) = .refused .evaluationStackFull := by
  rw [dispatchArith_of_readable op ht hs, hr, withValue_ok, pushAndAdvance_of_full hfull, finish_refuse]

/-- The unit's quotient, for a divisor other than 0 (D7). -/
theorem arithUnit_div_of_ne_zero (a : Word) (h : b ≠ 0) :
    arithUnit .div a b = .ok (BitVec.ofNat 16 (a.toNat / b.toNat)) :=
  if_neg fun hzero => h (BitVec.eq_of_toNat_eq hzero)

end Arithmetic

/-- Settles O15: the unit narrows the sum to 16 bits. -/
theorem addPushesSum : Obligations.AddPushesSum := by
  unfold Obligations.AddPushesSum
  exact fun f s a b ht hs hroom =>
    ⟨_, BitVec.toNat_ofNat _ _, finish_dispatchArith_of_hasRoom (op := .add) ht hs rfl hroom⟩

/-- Settles O16: the unit adds 65536 first, which the remainder takes away again. -/
theorem subPushesDifference : Obligations.SubPushesDifference := by
  unfold Obligations.SubPushesDifference
  refine fun f s a b ht hs hroom => ⟨_, ?_, finish_dispatchArith_of_hasRoom (op := .sub) ht hs rfl hroom⟩
  have hb := b.isLt
  rw [BitVec.toNat_ofNat]
  omega

/-- Settles O17: the unit narrows the product to 16 bits. -/
theorem mulPushesProduct : Obligations.MulPushesProduct := by
  unfold Obligations.MulPushesProduct
  exact fun f s a b ht hs hroom =>
    ⟨_, BitVec.toNat_ofNat _ _, finish_dispatchArith_of_hasRoom (op := .mul) ht hs rfl hroom⟩

/-- Settles O18: a quotient is no larger than its dividend, so the narrowing keeps it. -/
theorem divPushesQuotient : Obligations.DivPushesQuotient := by
  unfold Obligations.DivPushesQuotient
  refine fun f s a b ht hs hb hroom =>
    ⟨_, ?_, finish_dispatchArith_of_hasRoom ht hs (arithUnit_div_of_ne_zero a hb) hroom⟩
  rw [BitVec.toNat_ofNat]
  exact Nat.mod_eq_of_lt (lt_of_le_of_lt (Nat.div_le_self _ _) a.isLt)

/-! ## MOV and LD (R160, R161) -/

/-- With its source read, MOV is the write to its target. -/
theorem execMov_of_readable {f : Fields} {s : State} {v : Word} (h : readSource f s = .ok v) :
    execMov f s = finish (withValue (moveInto f v s) s .sequential) := by
  rw [execMov, h, withValue_ok]

/-- Registers are read as before where all four fields are. -/
theorem State.reg_eq_of_fields_eq {s t : State} (h1 : t.x1 = s.x1) (h2 : t.x2 = s.x2) (h3 : t.x3 = s.x3)
    (h4 : t.x4 = s.x4) (r : Reg) : t.reg r = s.reg r := by
  cases r with
  | r1 => exact h1
  | r2 => exact h2
  | r3 => exact h3
  | r4 => exact h4

/-- A register write and the advance change the one register and `pc` (R21). -/
theorem State.setReg_advance (s : State) (r : Reg) (v : Word) :
    ∃ t : State, { s.setReg r v with pc := nextSequential (s.setReg r v).pc } = t ∧
      (∀ q, t.reg q = if q = r then v else s.reg q) ∧
      t = { s with x1 := t.x1, x2 := t.x2, x3 := t.x3, x4 := t.x4, pc := s.pc + 6 } :=
  ⟨_, rfl, fun q => (State.reg_eq_of_fields_eq (s := s.setReg r v) rfl rfl rfl rfl q).trans (s.setReg_reg r q v),
    by cases r <;> rfl⟩

/-- Settles O20, by MOV's two kinds of destination. -/
theorem movWritesItsTarget : Obligations.MovWritesItsTarget := by
  unfold Obligations.MovWritesItsTarget
  intro f s v hv
  have hexec : exec (.mov f) s = finish (withValue (moveInto f v s) s .sequential) := execMov_of_readable hv
  refine ⟨fun r hreg => ?register, fun hip => ?instructionPointer⟩
  case register =>
    obtain ⟨t, rfl, ht⟩ := s.setReg_advance r v
    exact ⟨_, by rw [hexec, moveInto, hreg, withValue_ok, finish_sequential], ht⟩
  case instructionPointer =>
    rw [hexec, moveInto, hip]
    rfl

/-- Settles O21: CT and MA are no destinations of MOV, and the source is read before that is examined. -/
theorem movRefusesConstantAndMemoryTargets : Obligations.MovRefusesConstantAndMemoryTargets := by
  unfold Obligations.MovRefusesConstantAndMemoryTargets
  refine fun f s => ⟨fun htarget v hv => ?refusedTarget, fun k hk => exec_of_readSource_error rfl nofun hk⟩
  have hrefuse : moveInto f v s = .error .invalidMoveTarget := by
    obtain h | h := htarget <;> rw [moveInto, h]
  calc exec (.mov f) s = finish (withValue (moveInto f v s) s .sequential) := execMov_of_readable hv
    _ = .next (s.takeFault .invalidMoveTarget) := by rw [hrefuse, withValue_error, finish_raise]

/-- With its target read, LD is the push. -/
theorem execLd_of_readable {f : Fields} {s : State} {v : Word} (h : readTarget f s = .ok v) :
    execLd f s = finish (pushAndAdvance s v) := by
  rw [execLd, h, withValue_ok]

/-- Settles O22: with room on the stack the push goes on. -/
theorem ldPushesTarget : Obligations.LdPushesTarget := by
  unfold Obligations.LdPushesTarget
  intro f s v hv hroom
  rw [exec, execLd_of_readable hv, pushAndAdvance_of_hasRoom hroom]
  rfl

/-! ## ULD (R162) -/

/-- ULD into a memory word that takes the store. -/
theorem execUld_stores {f : Fields} {s : State} {l : List Word} {v : Word} {m : Memory} (htop : s.es = l ++ [v])
    (hma : f.tgt = .ma) (hstore : memWrite16 s.mem f.timm v = .ok m) :
    execUld f s = .next { s with es := l, mem := m, pc := s.pc + 6 } := by
  have hinto : unloadInto f v { s with es := l } = .ok { s with es := l, mem := m } := by
    simp only [unloadInto, hma, hstore]
  rw [execUld_of_concat htop, hinto]
  rfl

/-- Settles O23, by ULD's three kinds of destination; the bytes of a store are those of `memWrite16_read`. -/
theorem uldStoresPoppedValue : Obligations.UldStoresPoppedValue := by
  unfold Obligations.UldStoresPoppedValue
  intro f s l v hmem htop
  have hexec : exec (.uld f) s =
      finish (withValue (unloadInto f v { s with es := l }) { s with es := l } .sequential) := execUld_of_concat htop
  refine ⟨fun r hreg => ?register, fun hip => ?instructionPointer, fun hma himm => ?memory⟩
  case register =>
    obtain ⟨t, rfl, hregs, ht⟩ := State.setReg_advance { s with es := l } r v
    exact ⟨_, by rw [hexec, unloadInto, hreg, withValue_ok, finish_sequential], by simpa using hregs, ht⟩
  case instructionPointer =>
    rw [hexec, unloadInto, hip]
    rfl
  case memory =>
    obtain ⟨m, hstore⟩ := exists_memWrite16_ok himm s.mem v
    have hread := memWrite16_read hmem hstore
    exact ⟨_, execUld_stores htop hma hstore, rfl, by simp [hread], by simp [hread],
      fun x hx hx' => by simp [hread, hx, hx']⟩

/-- ULD into the word at 0xFFFF keeps the pop and writes nothing (D28). -/
theorem execUld_of_max {f : Fields} {s : State} {l : List Word} {v : Word} (htop : s.es = l ++ [v]) (hma : f.tgt = .ma)
    (himm : f.timm = 0xFFFF) : execUld f s = .next { s with es := l, status := .faulted .memoryFault } := by
  have hinto : unloadInto f v { s with es := l } = .error .memoryFault := by
    simp only [unloadInto, hma, himm, memWrite16_max]
  rw [execUld_of_concat htop, hinto, withValue_error, finish_raise, State.takeFault]

/-- Settles O26, by `execUld_of_max`. -/
theorem uldPastMemoryLosesValue : Obligations.UldPastMemoryLosesValue := by
  unfold Obligations.UldPastMemoryLosesValue
  exact fun f s l v htop hma himm => execUld_of_max htop hma himm

/-! ## BZ and CALL (R180, R181) -/

/-- Settles O27: both operands are read, then the target value decides. -/
theorem bzBranchesOnZero : Obligations.BzBranchesOnZero := by
  unfold Obligations.BzBranchesOnZero
  intro f s t a ht ha
  rw [exec, execBz, ht, withValue_ok, ha, withValue_ok]
  by_cases hzero : t = 0#16 <;> simp [testsZero, hzero, nextSequential]

/-- Settles O28: with room on the call stack the push goes on to the jump. -/
theorem callPushesReturnAddress : Obligations.CallPushesReturnAddress := by
  unfold Obligations.CallPushesReturnAddress
  intro f s t ht hroom
  rw [exec, execCall, ht, withValue_ok, State.pushCS, if_pos hroom]
  rfl

/-- Settles O42: every push asks for room first. -/
theorem fullStackRefusesPush : Obligations.FullStackRefusesPush := by
  unfold Obligations.FullStackRefusesPush
  refine fun f s d =>
    ⟨fun hdepth hlen => ⟨fun v hv => ?ld, fun a b ha hb => ?arithmetic⟩, fun hdepth hlen v hv => ?call⟩
  case ld => rw [exec, execLd_of_readable hv, pushAndAdvance_of_full (hasRoom_of_le hdepth hlen), finish_refuse]
  case arithmetic =>
    have hrefuse {op : ArithOp} {r : Word} (hr : arithUnit op a b = .ok r) :
        finish (dispatchArith op f s) = .refused .evaluationStackFull :=
      finish_dispatchArith_of_full ha hb hr (hasRoom_of_le hdepth hlen)
    exact ⟨hrefuse (op := .add) rfl, hrefuse (op := .sub) rfl, hrefuse (op := .mul) rfl,
      fun hne => hrefuse (arithUnit_div_of_ne_zero a hne)⟩
  case call =>
    have hfull : s.pushCS (nextSequential s.pc) = none := if_neg (by simp [hasRoom_of_le hdepth hlen])
    rw [exec, execCall, hv, withValue_ok, hfull, finish_refuse]

/-! ## HALT, NOP and SWI (R200 to R204) -/

/-- Settles O31, by HALT's meaning. -/
theorem haltStops : Obligations.HaltStops := by
  unfold Obligations.HaltStops
  exact execHalt_eq

/-- Settles O32, by NOP's meaning. -/
theorem nopAdvances : Obligations.NopAdvances := by
  unfold Obligations.NopAdvances
  exact execNop_eq

/-- SWI code 0 prints R1 as a character. -/
theorem execSwi_of_zero {f : Fields} (h : f.timm = 0) (s : State) :
    execSwi f s = .next { s with console := s.console ++ characterText s.x1, pc := s.pc + 6 } := by
  rw [execSwi, h]
  rfl

/-- SWI code 1 prints R1 as a number. -/
theorem execSwi_of_one {f : Fields} (h : f.timm = 1) (s : State) :
    execSwi f s = .next { s with console := s.console ++ decimalText s.x1, pc := s.pc + 6 } := by
  rw [execSwi, h]
  rfl

/-- Settles O35: the codes 0 and 1 are too small. -/
theorem unknownSwiCodeFaults : Obligations.UnknownSwiCodeFaults := by
  unfold Obligations.UnknownSwiCodeFaults
  intro f s hcode
  obtain ⟨h, _⟩ | ⟨h, _⟩ | ⟨_, he⟩ := execSwi_cases f s
  · simp [h] at hcode
  · simp [h] at hcode
  · exact he

theorem isScalar_iff (v : Word) : isScalar v = true ↔ v.toNat ≤ 0xD7FF ∨ 0xE000 ≤ v.toNat := by
  simp [isScalar]

/-- The character of a scalar value has that code point (R203, G1). -/
theorem toNat_ofNat_of_isScalar {v : Word} (h : isScalar v = true) : (Char.ofNat v.toNat).toNat = v.toNat := by
  have hvalid : v.toNat.isValidChar := by
    have hv := v.isLt
    rw [isScalar_iff] at h
    unfold Nat.isValidChar
    omega
  rw [Char.toNat_ofNat, if_pos hvalid]

/-- Settles O33: `characterText` is one character for a scalar value and empty for a surrogate. -/
theorem swiPrintsCharacter : Obligations.SwiPrintsCharacter := by
  unfold Obligations.SwiPrintsCharacter
  intro f s hcode
  have hexec := execSwi_of_zero hcode s
  refine ⟨fun hrange => ?scalar, fun hrange => ?surrogate⟩
  case scalar =>
    have hscalar : isScalar s.x1 = true := (isScalar_iff _).mpr hrange
    rw [characterText, if_pos hscalar] at hexec
    exact ⟨_, toNat_ofNat_of_isScalar hscalar, hexec⟩
  case surrogate =>
    have hsurrogate : ¬ isScalar s.x1 = true := by
      rw [isScalar_iff]
      omega
    rw [characterText, if_neg hsurrogate, List.append_nil] at hexec
    exact hexec

end Sys2Proof.Machine
end

section
/-! PROOFS. What a step can change, fault and halt on (10_state.md R22, R28, R29, 20_memory.md R51,
40_execution_cycle.md R116 to R119, 43_control_transfer.md R183, 60_exceptions.md R247, R262, R263),
read off the relation `Effect`. -/

namespace Sys2Proof.Machine

open Sys2Proof

/-! ## Status -/

/-- From a Running state an effect faults, halts by HALT, or goes on Running. -/
theorem Effect.status_cases {s t : State} {i : Instr} (h : Effect s i (.next t)) (hrunning : s.status = .running) :
    (∃ k ∈ i.mayRaise, (k = .memoryFault → ReadsPastMemory i) ∧ t = s.takeFault k) ∨
      (∃ f l v k, i = .uld f ∧ s.es = l ++ [v] ∧
        (f.tgt = .ct ∧ k = .invalidUnloadTarget ∨ f.tgt = .ma ∧ f.timm = 0xFFFF ∧ k = .memoryFault) ∧
        t = ({ s with es := l } : State).takeFault k) ∨
      (∃ f, i = .halt f ∧ t.status = .halted) ∨ ((∀ f, i ≠ .halt f) ∧ t.status = .running) := by
  cases h
  case raised hlisted hmemory => exact .inl ⟨_, hlisted, hmemory, rfl⟩
  case popLost htop hkind => exact .inr (.inl ⟨_, _, _, _, rfl, htop, hkind, rfl⟩)
  case halted f => exact .inr (.inr (.inl ⟨f, rfl, rfl⟩))
  case pushed hclass => exact .inr (.inr (.inr ⟨by rintro f rfl; simp at hclass, hrunning⟩))
  case continued hclass => exact .inr (.inr (.inr ⟨by rintro f rfl; simp at hclass, hrunning⟩))
  case moved => exact .inr (.inr (.inr ⟨nofun, by simpa using hrunning⟩))
  case unloaded => exact .inr (.inr (.inr ⟨nofun, by simpa using hrunning⟩))
  all_goals exact .inr (.inr (.inr ⟨nofun, hrunning⟩))

/-- An effect that leaves Faulted(k) raised k. -/
theorem Effect.of_faulted {s t : State} {i : Instr} {k : FaultKind} (h : Effect s i (.next t))
    (hrunning : s.status = .running) (hfault : t.status = .faulted k) :
    (k ∈ i.mayRaise ∧ (k = .memoryFault → ReadsPastMemory i) ∧ t = s.takeFault k) ∨
      (∃ f l v, i = .uld f ∧ s.es = l ++ [v] ∧
        (f.tgt = .ct ∧ k = .invalidUnloadTarget ∨ f.tgt = .ma ∧ f.timm = 0xFFFF ∧ k = .memoryFault) ∧
        t = ({ s with es := l } : State).takeFault k) := by
  obtain ⟨_, hlisted, hmemory, rfl⟩ | ⟨f, l, v, _, hi, htop, hkind, rfl⟩ | ⟨_, _, hhalted⟩ | ⟨_, hstill⟩ :=
    h.status_cases hrunning
  · cases hfault
    exact .inl ⟨hlisted, hmemory, rfl⟩
  · cases hfault
    exact .inr ⟨f, l, v, hi, htop, hkind, rfl⟩
  · cases hhalted.symm.trans hfault
  · cases hstill.symm.trans hfault

/-- Settles O47, by the four ways the status can go. -/
theorem onlyHaltHalts : Obligations.OnlyHaltHalts := by
  unfold Obligations.OnlyHaltHalts
  intro s t h
  obtain ⟨hrunning, ⟨k, hfetch, rfl⟩ | ⟨i, hfetch, he⟩⟩ := step_effect h
  · simp [hfetch]
  · obtain ⟨k, hlisted, _, rfl⟩ | ⟨f, l, v, k, rfl, _, _, rfl⟩ | ⟨f, rfl, hhalted⟩ | ⟨hother, hstill⟩ :=
      he.status_cases ((s.emitTrace_status i).trans hrunning)
    · have hother : ∀ f, i ≠ .halt f := by
        rintro f rfl
        simp [Instr.mayRaise] at hlisted
      simp [hfetch, hother]
    · simp [hfetch]
    · simp [hfetch, hhalted]
    · simp [hfetch, hother, hstill]

/-! ## Registers, memory and stacks -/

section Changes
variable {s t : State} {i : Instr}

/-- Only MOV and ULD into a register write one (R22). -/
theorem Effect.reg_cases (h : Effect s i (.next t)) (r : Reg) :
    t.reg r = s.reg r ∨ (t.status = s.status ∧ ∃ f, f.tgt = .reg r ∧ (i = .mov f ∨ i = .uld f)) := by
  cases h
  case moved f q v htarget =>
    by_cases hr : r = q
    · exact .inr ⟨State.setReg_status s q v, f, hr ▸ htarget, .inl rfl⟩
    · refine .inl ((State.reg_eq_of_fields_eq (s := s.setReg q v) rfl rfl rfl rfl r).trans ?_)
      rw [State.setReg_reg, if_neg hr]
  case unloaded f q l v htop htarget =>
    by_cases hr : r = q
    · exact .inr ⟨State.setReg_status { s with es := l } q v, f, hr ▸ htarget, .inr rfl⟩
    · refine .inl ((State.reg_eq_of_fields_eq (s := State.setReg { s with es := l } q v) rfl rfl rfl rfl r).trans ?_)
      rw [State.setReg_reg, if_neg hr, State.reg_with_es]
  all_goals exact .inl (State.reg_eq_of_fields_eq rfl rfl rfl rfl r)

/-- Only ULD into MA stores (R51). -/
theorem Effect.mem_cases (h : Effect s i (.next t)) :
    t.mem = s.mem ∨ ∃ f v, i = .uld f ∧ f.tgt = .ma ∧ memWrite16 s.mem f.timm v = .ok t.mem := by
  cases h
  case moved v _ => exact .inl (State.setReg_mem s _ v)
  case unloaded l v _ _ => exact .inl (State.setReg_mem { s with es := l } _ v)
  case stored f l v m htop htarget hstore => exact .inr ⟨f, v, rfl, htarget, hstore⟩
  all_goals exact .inl rfl

/-- How the evaluation stack moves (R28). -/
theorem Effect.es_cases (h : Effect s i (.next t)) :
    t.es = s.es ∨ (∃ v f, t.es = s.es ++ [v] ∧ i ∈ [Instr.add f, .sub f, .mul f, .div f, .ld f]) ∨
      (∃ v f, s.es = t.es ++ [v] ∧ i = .uld f) := by
  cases h
  case pushed f v hroom hclass => exact .inr (.inl ⟨v, f, rfl, hclass⟩)
  case moved v _ => exact .inl (State.setReg_es s _ v)
  case popLost htop _ => exact .inr (.inr ⟨_, _, htop, rfl⟩)
  case unloaded f q l v htop _ =>
    exact .inr (.inr ⟨_, _, htop.trans (congrArg (· ++ [v]) (State.setReg_es { s with es := l } q v).symm), rfl⟩)
  case unloadedIp htop => exact .inr (.inr ⟨_, _, htop, rfl⟩)
  case stored htop _ _ => exact .inr (.inr ⟨_, _, htop, rfl⟩)
  all_goals exact .inl rfl

/-- How the call stack moves, and `pc` with it (R29). -/
theorem Effect.cs_cases (h : Effect s i (.next t)) :
    t.cs = s.cs ∨ (∃ f, t.cs = s.cs ++ [s.pc + 6] ∧ i = .call f) ∨ (∃ f, s.cs = t.cs ++ [t.pc] ∧ i = .ret f) := by
  cases h
  case moved v _ => exact .inl (State.setReg_cs s _ v)
  case unloaded l v _ _ => exact .inl (State.setReg_cs { s with es := l } _ v)
  case called => exact .inr (.inl ⟨_, rfl, rfl⟩)
  case returned htop => exact .inr (.inr ⟨_, htop, rfl⟩)
  all_goals exact .inl rfl

end Changes

/-- Settles O48: neither a trace line nor a fault of the fetch changes a register, and an effect does so only by
`Effect.reg_cases`. -/
theorem onlyMovAndUldWriteRegisters : Obligations.OnlyMovAndUldWriteRegisters := by
  unfold Obligations.OnlyMovAndUldWriteRegisters
  intro s t r h hchanged
  obtain ⟨hrunning, ⟨k, _, rfl⟩ | ⟨i, hfetch, he⟩⟩ := step_effect h
  · exact absurd (s.takeFault_reg k r) hchanged
  · obtain hsame | ⟨hstatus, f, htarget, hi⟩ := he.reg_cases r
    · exact absurd (hsame.trans (s.emitTrace_reg i r)) hchanged
    · refine ⟨hstatus.trans ((s.emitTrace_status i).trans hrunning), f, htarget, ?_⟩
      obtain rfl | rfl := hi
      · exact .inl hfetch
      · exact .inr hfetch

/-- Settles O49: the bytes of the one store are those of `memWrite16_read`. -/
theorem onlyUldStoresToMemory : Obligations.OnlyUldStoresToMemory := by
  unfold Obligations.OnlyUldStoresToMemory
  intro s t a hwf h hchanged
  obtain ⟨_, ⟨k, _, rfl⟩ | ⟨i, hfetch, he⟩⟩ := step_effect h
  · exact absurd rfl hchanged
  · obtain hsame | ⟨f, v, rfl, htarget, hstore⟩ := he.mem_cases
    · exact absurd (congrArg (Memory.read · a) (hsame.trans (s.emitTrace_mem i))) hchanged
    · refine ⟨f, hfetch, htarget, ?_⟩
      rw [State.emitTrace_mem] at hstore
      by_contra hne
      rw [not_or] at hne
      exact hchanged (by rw [memWrite16_read hwf hstore, if_neg hne.1, if_neg hne.2])

/-- Settles O50, one clause from each of `Effect.es_cases` and `Effect.cs_cases`. -/
theorem stacksMoveByOneValue : Obligations.StacksMoveByOneValue := by
  unfold Obligations.StacksMoveByOneValue
  intro s t h
  obtain ⟨_, ⟨k, _, rfl⟩ | ⟨i, hfetch, he⟩⟩ := step_effect h
  · exact ⟨.inl rfl, .inl rfl⟩
  · have hes := he.es_cases
    have hcs := he.cs_cases
    rw [State.emitTrace_es] at hes
    rw [State.emitTrace_cs, State.emitTrace_pc] at hcs
    refine ⟨?evaluationStack, ?callStack⟩
    case evaluationStack =>
      obtain hsame | ⟨v, f, hpush, hi⟩ | ⟨v, f, hpop, rfl⟩ := hes
      · exact .inl hsame
      · exact .inr (.inl ⟨v, f, hpush, i, hi, hfetch⟩)
      · exact .inr (.inr ⟨v, f, hpop, hfetch⟩)
    case callStack =>
      obtain hsame | ⟨f, hpush, rfl⟩ | ⟨f, hpop, rfl⟩ := hcs
      · exact .inl hsame
      · exact .inr (.inl ⟨f, hpush, hfetch⟩)
      · exact .inr (.inr ⟨f, hpop, hfetch⟩)

/-! ## Faults -/

/-- The class of an Instruction raises a fault of the list at some state. -/
def RaisedSomewhere (i : Instr) (k : FaultKind) : Prop :=
  ∃ (j : Instr) (s t : State), j.opbyte = i.opbyte ∧ s.status = .running ∧ exec j s = .next t ∧
    t.status = .faulted k

/-- A target operand MA at 0xFFFF. -/
def targetPastMemory : Fields := assemble .ma .ct 0xFFFF 0

/-- That operand makes every Instruction that reads it raise MemoryFault. -/
theorem raisedSomewhere_of_readsTarget {i j : Instr} (hclass : j.opbyte = i.opbyte) (hreads : j.readsTarget = true)
    (hfields : j.fields = targetPastMemory) : RaisedSomewhere i .memoryFault :=
  ⟨j, State.reset, _, hclass, rfl, exec_of_readTarget_error hreads (by rw [hfields]; rfl), rfl⟩

/-- Each fault of R263's table is raised somewhere, with an operand, a stack or a code that asks for it. -/
theorem raisedSomewhere_of_mem_mayRaise {i : Instr} {k : FaultKind} (h : k ∈ i.mayRaise) : RaisedSomewhere i k := by
  cases i with
  | halt f => exact absurd h List.not_mem_nil
  | add f =>
    obtain rfl := List.mem_singleton.mp h
    exact raisedSomewhere_of_readsTarget (j := .add targetPastMemory) rfl rfl rfl
  | sub f =>
    obtain rfl := List.mem_singleton.mp h
    exact raisedSomewhere_of_readsTarget (j := .sub targetPastMemory) rfl rfl rfl
  | mul f =>
    obtain rfl := List.mem_singleton.mp h
    exact raisedSomewhere_of_readsTarget (j := .mul targetPastMemory) rfl rfl rfl
  | div f =>
    obtain rfl | rfl := List.mem_pair.mp h
    · exact raisedSomewhere_of_readsTarget (j := .div targetPastMemory) rfl rfl rfl
    · exact ⟨.div (assemble .ct .ct 0 0), State.reset, _, rfl, rfl, rfl, rfl⟩
  | mov f =>
    obtain rfl | rfl := List.mem_pair.mp h
    · exact ⟨.mov (assemble .ct .ma 0 0xFFFF), State.reset, _, rfl, rfl, rfl, rfl⟩
    · exact ⟨.mov (assemble .ct .ct 0 0), State.reset, _, rfl, rfl, rfl, rfl⟩
  | ld f =>
    obtain rfl := List.mem_singleton.mp h
    exact raisedSomewhere_of_readsTarget (j := .ld targetPastMemory) rfl rfl rfl
  | uld f =>
    obtain rfl | rfl | rfl : k = .stackUnderflow ∨ k = .invalidUnloadTarget ∨ k = .memoryFault := by
      simpa [Instr.mayRaise] using h
    · exact ⟨.uld (assemble .ct .ct 0 0), State.reset, _, rfl, rfl, rfl, rfl⟩
    · exact ⟨.uld (assemble .ct .ct 0 0), { State.reset with es := [0] }, _, rfl, rfl, rfl, rfl⟩
    · exact ⟨.uld targetPastMemory, { State.reset with es := [0] }, _, rfl, rfl, rfl, rfl⟩
  | bz f =>
    obtain rfl := List.mem_singleton.mp h
    exact raisedSomewhere_of_readsTarget (j := .bz targetPastMemory) rfl rfl rfl
  | swi f =>
    obtain rfl := List.mem_singleton.mp h
    exact ⟨.swi (assemble .ct .ct 2 0), State.reset, _, rfl, rfl, rfl, rfl⟩
  | call f =>
    obtain rfl := List.mem_singleton.mp h
    exact raisedSomewhere_of_readsTarget (j := .call targetPastMemory) rfl rfl rfl
  | ret f =>
    obtain rfl := List.mem_singleton.mp h
    exact ⟨.ret (assemble .ct .ct 0 0), State.reset, _, rfl, rfl, rfl, rfl⟩
  | nop b f => exact absurd h List.not_mem_nil

/-- Settles O38: `Effect.of_faulted` raises listed kinds only, and the witnesses show each of them. -/
theorem faultsByInstruction : Obligations.FaultsByInstruction := by
  unfold Obligations.FaultsByInstruction
  refine ⟨fun i s t k hrunning h hfault => ?_, fun i k hlisted => raisedSomewhere_of_mem_mayRaise hlisted⟩
  have he : Effect s i (.next t) := h ▸ exec_effect i s
  obtain ⟨hlisted, _⟩ | ⟨f, _, _, rfl, _, ⟨_, rfl⟩ | ⟨_, _, rfl⟩, _⟩ := he.of_faulted hrunning hfault
  · exact hlisted
  · simp [Instr.mayRaise]
  · simp [Instr.mayRaise]

/-- Settles O39: a fault is taken in the state before the dispatch, or by ULD in that state after its pop. -/
theorem faultIsPrecise : Obligations.FaultIsPrecise := by
  unfold Obligations.FaultIsPrecise
  intro s t k h hfault
  obtain ⟨hrunning, ⟨k', hfetch, rfl⟩ | ⟨i, hfetch, he⟩⟩ := step_effect h
  · cases hfault
    exact ⟨rfl, .inl ⟨hfetch, rfl, rfl⟩⟩
  · obtain ⟨_, _, rfl⟩ | ⟨f, l, v, rfl, htop, hkind, rfl⟩ :=
      he.of_faulted ((s.emitTrace_status i).trans hrunning) hfault
    · refine ⟨?_, .inr ⟨i, hfetch, rfl, .inl (s.emitTrace_es i)⟩⟩
      rw [s.emitTrace_eq i]
      rfl
    · rw [State.emitTrace_es] at htop
      refine ⟨?_, .inr ⟨_, hfetch, rfl, .inr ⟨f, v, rfl, htop, hkind.imp And.right fun h => h.2.2⟩⟩⟩
      rw [s.emitTrace_eq]
      rfl

/-- An Instruction that reads past memory raises MemoryFault, the target's fault first. -/
theorem exec_of_readsPastMemory {i : Instr} (h : ReadsPastMemory i) (s : State) :
    exec i s = .next (s.takeFault .memoryFault) := by
  obtain ⟨hreads, hma, himm⟩ | ⟨hreads, hma, himm⟩ := h
  · exact exec_of_readTarget_error hreads (readOperand_error_iff.mpr ⟨hma, himm, rfl⟩)
  · have hsource : readSource i.fields s = .error .memoryFault := readOperand_error_iff.mpr ⟨hma, himm, rfl⟩
    obtain ⟨a, ha⟩ | ⟨htma, htimm, ht⟩ := readOperand_cases i.fields.tgt i.fields.timm s
    · exact exec_of_readSource_error hreads (fun _ => ⟨a, ha⟩) hsource
    · cases htarget : i.readsTarget with
      | true => exact exec_of_readTarget_error htarget ht
      | false => exact exec_of_readSource_error hreads (by simp [htarget]) hsource

/-- Settles O37: `Effect.of_faulted` gives the three situations, and in each of them the step's answer is the fault. -/
theorem memoryFaultExactlyWhen : Obligations.MemoryFaultExactlyWhen := by
  unfold Obligations.MemoryFaultExactlyWhen
  intro s t h
  obtain ⟨hrunning, ⟨k, hfetch, rfl⟩ | ⟨i, hfetch, hexec⟩⟩ := step_next h
  · obtain ⟨hpast, hread⟩ | ⟨_, hread⟩ := memRead48_cases s.mem s.pc
    · cases hfetch.symm.trans (fetchInstr_of_memRead48_error hread)
      exact ⟨fun _ => .inl hpast, fun _ => rfl⟩
    · cases hfetch.symm.trans (fetchInstr_of_memRead48_ok hread)
  · refine ⟨fun hfault => .inr ⟨i, hfetch, ?situation⟩, ?raised⟩
    case situation =>
      have he : Effect (s.emitTrace i) i (.next t) := hexec ▸ exec_effect i _
      obtain ⟨_, hmemory, _⟩ | ⟨f, l, v, rfl, htop, ⟨_, hk⟩ | ⟨hma, himm, _⟩, _⟩ :=
        he.of_faulted ((s.emitTrace_status i).trans hrunning) hfault
      · exact (hmemory rfl).imp_right .inl
      · cases hk
      · rw [State.emitTrace_es] at htop
        exact .inr (.inr ⟨f, rfl, hma, himm, by simp [htop]⟩)
    case raised =>
      rintro (hpast | ⟨j, hj, hsituation⟩)
      · obtain ⟨_, hread⟩ | ⟨hfits, _⟩ := memRead48_cases s.mem s.pc
        · cases hfetch.symm.trans (fetchInstr_of_memRead48_error hread)
        · omega
      · cases hfetch.symm.trans hj
        obtain htarget | hsource | ⟨f, rfl, hma, himm, hne⟩ := hsituation
        · cases hexec.symm.trans (exec_of_readsPastMemory (.inl htarget) _)
          rfl
        · cases hexec.symm.trans (exec_of_readsPastMemory (.inr hsource) _)
          rfl
        · have htop := (List.dropLast_append_getLast hne).symm
          cases hexec.symm.trans (execUld_of_max (s := s.emitTrace (.uld f)) ((s.emitTrace_es _).trans htop) hma himm)
          rfl

/-! ## Progress (R262) -/

/-- A Running step whose fetch answers is the Instruction's execution after its trace line (R111, R121). -/
theorem step_of_fetchInstr_ok {s : State} {i : Instr} (hrunning : s.status = .running) (hfetch : fetchInstr s = .ok i) :
    step s = exec i (s.emitTrace i) := by
  simp only [step, hrunning, hfetch]

/-- Settles O46: an unbounded stack has room, so no effect is a refusal. -/
theorem runningEngineAlwaysSteps : Obligations.RunningEngineAlwaysSteps := by
  unfold Obligations.RunningEngineAlwaysSteps
  intro s hrunning hes hcs
  cases hfetch : fetchInstr s with
  | error k => exact ⟨_, step_of_fetchInstr_error hrunning hfetch⟩
  | ok i =>
    have he := exec_effect i (s.emitTrace i)
    rw [step_of_fetchInstr_ok hrunning hfetch]
    generalize exec i (s.emitTrace i) = answer at he
    cases he
    case refusedES hfull => simp [hes, hasRoom] at hfull
    case refusedCS hfull => simp [hcs, hasRoom] at hfull
    all_goals exact ⟨_, rfl⟩

/-! ## Call and return (R183) -/

/-- A step from and to a call stack of at least `d` addresses keeps the lowest `d`. -/
theorem step_take_cs {s t : State} {d : Nat} (h : step s = .next t) (hs : d ≤ s.cs.length) (ht : d ≤ t.cs.length) :
    t.cs.take d = s.cs.take d := by
  obtain hsame | ⟨_, hpush, _⟩ | ⟨_, hpop, _⟩ := (stacksMoveByOneValue s t h).2
  · rw [hsame]
  · rw [hpush, List.take_append_of_le_length hs]
  · rw [hpop, List.take_append_of_le_length ht]

theorem le_length_of_stepsAbove {d n : Nat} {s u : State} (h : stepsAbove d n s = some u) : d ≤ s.cs.length := by
  by_contra hlow
  cases n <;> simp [stepsAbove, hlow] at h

/-- So does a run that stays at or above that depth, by induction on its steps. -/
theorem stepsAbove_take_cs {d n : Nat} {s u : State} (h : stepsAbove d n s = some u) :
    u.cs.take d = s.cs.take d := by
  induction n generalizing s with
  | zero =>
    have hs := le_length_of_stepsAbove h
    rw [stepsAbove, if_pos hs] at h
    cases h
    rfl
  | succ n ih =>
    have hs := le_length_of_stepsAbove h
    rw [stepsAbove, if_pos hs] at h
    cases hstep : step s with
    | next t =>
      rw [hstep] at h
      exact (ih h).trans (step_take_cs hstep hs (le_length_of_stepsAbove h))
    | fault r => rw [hstep] at h; cases h
    | refused r => rw [hstep] at h; cases h

/-- A CALL that goes on Running pushed its return address. -/
theorem step_call_cs {s t : State} {f : Fields} (hfetch : fetchInstr s = .ok (.call f)) (h : step s = .next t)
    (hgoesOn : t.status = .running) : t.cs = s.cs ++ [s.pc + 6] := by
  obtain ⟨_, ⟨k, hfault, _⟩ | ⟨i, hi, he⟩⟩ := step_effect h
  · cases hfetch.symm.trans hfault
  · cases hfetch.symm.trans hi
    cases he
    case called => rw [State.emitTrace_cs, State.emitTrace_pc]; rfl
    case raised => cases hgoesOn
    case pushed hclass => simp at hclass
    case continued hclass => simp at hclass

/-- A Running engine at a RET with an address on the call stack continues there. -/
theorem step_ret {s : State} {g : Fields} {l : List Word} {r : Word} (hrunning : s.status = .running)
    (hfetch : fetchInstr s = .ok (.ret g)) (htop : s.cs = l ++ [r]) :
    step s = .next { s.emitTrace (.ret g) with cs := l, pc := r } := by
  rw [step_of_fetchInstr_ok hrunning hfetch]
  exact (retPopsCallStack g _).1 l r ((s.emitTrace_cs _).trans htop)

/-- Settles O30: the run keeps the stack the CALL left, so the RET pops the CALL's own return address. -/
theorem callReturnSymmetry : Obligations.CallReturnSymmetry := by
  unfold Obligations.CallReturnSymmetry
  intro s t u f g n hcall hstep hgoesOn hrun hdepth hrunning hret
  have hkept : u.cs = t.cs := by
    have htake := stepsAbove_take_cs hrun
    rwa [List.take_length, ← hdepth, List.take_length] at htake
  have htop : u.cs = s.cs ++ [s.pc + 6] := hkept.trans (step_call_cs hcall hstep hgoesOn)
  exact ⟨_, step_ret hrunning hret htop, rfl, rfl, (u.emitTrace_status _).trans hrunning⟩

end Sys2Proof.Machine
end

section
/-! PROOFS. Numbers as text (44_system.md R204, 45_state_renderer.md R222, R228): the digits spell the number without a
leading zero, and so do their characters. -/

namespace Sys2Proof.Machine

open Sys2Proof

/-! ## Digits -/

/-- Digits, most significant first, that are below the base, spell the number and begin with 0 only alone. -/
structure Spells (base : Nat) (ds : List Nat) (n : Nat) : Prop where
  lt_base : ∀ d ∈ ds, d < base
  value : ds.foldl (fun acc d => base * acc + d) 0 = n
  ne_nil : ds ≠ []
  no_leading_zero : ds.head? = some 0 → ds = [0]

/-- A number below the base is spelled by its one digit. -/
theorem Spells.of_lt {base n : Nat} (h : n < base) : Spells base [n] n where
  lt_base := by simpa using h
  value := by simp
  ne_nil := by simp
  no_leading_zero := by simp

/-- The last digit of a number not below the base follows those of its quotient. -/
theorem Spells.concat {base n : Nat} {ds : List Nat} (hbase : 0 < base) (hn : base ≤ n)
    (h : Spells base ds (n / base)) : Spells base (ds ++ [n % base]) n where
  lt_base := by
    intro d hd
    obtain hd | rfl : d ∈ ds ∨ d = n % base := by simpa using hd
    · exact h.lt_base d hd
    · exact Nat.mod_lt n hbase
  value := by rw [List.foldl_append, h.value, List.foldl_cons, List.foldl_nil, Nat.div_add_mod]
  ne_nil := by simp
  no_leading_zero := by
    rw [List.head?_append_of_ne_nil ds h.ne_nil]
    intro hhead
    have hquotient : n / base = 0 := by rw [← h.value, h.no_leading_zero hhead]; simp
    exact absurd hquotient (Nat.div_pos hn hbase).ne'

/-- The fuel suffices: a quotient by 2 or more is smaller than the number. -/
theorem digitsFuel_spells {base fuel n : Nat} (hbase : 2 ≤ base) (hfuel : n < fuel) :
    Spells base (digitsFuel base fuel n) n := by
  induction fuel generalizing n with
  | zero => omega
  | succ fuel ih =>
    rw [digitsFuel]
    split
    case isTrue hlt => exact .of_lt hlt
    case isFalse hge =>
      have hsmaller : n / base < n := Nat.div_lt_self (by omega) hbase
      exact .concat (by omega) (by omega) (ih (by omega))

theorem digits_spells {base : Nat} (hbase : 2 ≤ base) (n : Nat) : Spells base (digits base n) n :=
  digitsFuel_spells hbase (Nat.lt_succ_self n)

/-! ## Characters -/

/-- A number's text, under characters with a value each and '0' for the digit 0 alone, spells it too. -/
theorem Spells.text {base n : Nat} {ds : List Nat} (h : Spells base ds n) {toChar : Nat → Char} {value : Char → Nat}
    (hvalue : ∀ d < base, value (toChar d) = d) (hzero : ∀ d < base, toChar d = '0' → d = 0) (hchar : toChar 0 = '0') :
    (ds.map toChar).foldl (fun acc c => base * acc + value c) 0 = n ∧ ds.map toChar ≠ [] ∧
      ((ds.map toChar).head? = some '0' → ds.map toChar = ['0']) := by
  refine ⟨?value, by simpa using h.ne_nil, fun hhead => ?leading⟩
  case value =>
    rw [List.foldl_map, ← h.value]
    exact List.foldl_ext _ _ 0 fun acc d hd => by rw [hvalue d (h.lt_base d hd)]
  case leading =>
    rw [List.head?_map, Option.map_eq_some_iff] at hhead
    obtain ⟨d, hd, hd0⟩ := hhead
    obtain rfl := hzero d (h.lt_base d (List.mem_of_head? hd)) hd0
    rw [h.no_leading_zero hd, List.map_singleton, hchar]

/-- The code points of the decimal digits (G2). -/
theorem toNat_decimalChar : ∀ d < 10, (decimalChar d).toNat = 0x30 + d := by decide

/-- Settles O34: the digits spell R1, and their characters do as well. -/
theorem swiPrintsDecimal : Obligations.SwiPrintsDecimal := by
  unfold Obligations.SwiPrintsDecimal
  intro f s hcode
  have hspells := digits_spells (base := 10) (by omega) s.x1.toNat
  obtain ⟨hvalue, hne, hlead⟩ := hspells.text (toChar := decimalChar) (value := fun c => c.toNat - 0x30)
    (fun d hd => by rw [toNat_decimalChar d hd]; omega) (by decide) (by decide)
  refine ⟨decimalText s.x1, execSwi_of_one hcode s, fun c hc => ?digit, hvalue, hne, hlead⟩
  case digit =>
    obtain ⟨d, hd, rfl⟩ := List.mem_map.mp hc
    have hlt := hspells.lt_base d hd
    rw [toNat_decimalChar d hlt]
    omega

/-- The value of a hexadecimal digit's character, in the case that is selected. -/
def hexValue (upper : Bool) (c : Char) : Nat :=
  if c.toNat ≤ 0x39 then c.toNat - 0x30 else if upper then c.toNat - 0x37 else c.toNat - 0x57

theorem hexValue_hexChar : ∀ (upper : Bool), ∀ d < 16, hexValue upper (hexChar upper d) = d := by decide

theorem eq_zero_of_hexChar_eq : ∀ (upper : Bool), ∀ d < 16, hexChar upper d = '0' → d = 0 := by decide

/-- A hexadecimal digit's character is a decimal digit or a letter of the selected case. -/
theorem hexChar_range : ∀ (upper : Bool), ∀ d < 16,
    (0x30 ≤ (hexChar upper d).toNat ∧ (hexChar upper d).toNat ≤ 0x39) ∨
      (if upper then 0x41 ≤ (hexChar upper d).toNat ∧ (hexChar upper d).toNat ≤ 0x46
        else 0x61 ≤ (hexChar upper d).toNat ∧ (hexChar upper d).toNat ≤ 0x66) := by decide

/-- Settles O57, by the same two facts in base 16. -/
theorem hexTextSpellsTheValue : Obligations.HexTextSpellsTheValue := by
  unfold Obligations.HexTextSpellsTheValue
  intro upper v
  have hspells := digits_spells (base := 16) (by omega) v.toNat
  obtain ⟨hvalue, hne, hlead⟩ :=
    hspells.text (hexValue_hexChar upper) (eq_zero_of_hexChar_eq upper) (by cases upper <;> rfl)
  refine ⟨_, rfl, hne, hlead, fun c hc => ?digit, hvalue⟩
  case digit =>
    obtain ⟨d, hd, rfl⟩ := List.mem_map.mp hc
    exact hexChar_range upper d (hspells.lt_base d hd)

/-- Settles O56, by running the renderer on each line. -/
theorem workedRenderings : Obligations.WorkedRenderings := by
  unfold Obligations.WorkedRenderings
  decide

end Sys2Proof.Machine
end

section
/-! PROOFS. What a step does not depend on (30_encoding.md R90, 10_state.md R35, 45_state_renderer.md R227), and what
follows for a resumed fault (60_exceptions.md R253). -/

namespace Sys2Proof.Machine

open Sys2Proof

/-! ## Ignored fields (R90) -/

section IgnoredFields
variable (f : Fields) (s : State)

/-- A mode that does not use its immediate does not read it. -/
theorem readOperand_usedImm (m : Operand) (imm : Word) : readOperand m (usedImm m imm) s = readOperand m imm s := by
  cases m <;> rfl

theorem readTarget_targetOnly : readTarget f.targetOnly s = readTarget f s := readOperand_usedImm s f.tgt f.timm

theorem readTarget_bothSides : readTarget f.bothSides s = readTarget f s := readOperand_usedImm s f.tgt f.timm

theorem readSource_bothSides : readSource f.bothSides s = readSource f s := readOperand_usedImm s f.src f.simm

theorem dispatchArith_bothSides (op : ArithOp) : dispatchArith op f.bothSides s = dispatchArith op f s := by
  rw [dispatchArith, dispatchArith, readTarget_bothSides, readSource_bothSides]

/-- MOV examines its target's mode alone. -/
theorem execMov_usedPart : execMov { f.bothSides with timm := 0 } s = execMov f s := by
  have hsource : readSource { f.bothSides with timm := 0 } s = readSource f s := readSource_bothSides f s
  have hinto (v : Word) : moveInto { f.bothSides with timm := 0 } v s = moveInto f v s := rfl
  rw [execMov, execMov, hsource]
  simp only [hinto]

/-- ULD's destination depends on the immediate only where it is an address. -/
theorem unloadInto_congr {f g : Fields} (htgt : g.tgt = f.tgt) (himm : f.tgt = .ma → g.timm = f.timm) (v : Word)
    (s : State) : unloadInto g v s = unloadInto f v s := by
  unfold unloadInto
  rw [htgt]
  cases h : f.tgt with
  | ma => rw [himm h]
  | _ => rfl

theorem execUld_usedPart :
    execUld { f.targetOnly with timm := if f.tgt = .ma then f.timm else 0 } s = execUld f s := by
  have hinto (v : Word) := unloadInto_congr (f := f)
    (g := { f.targetOnly with timm := if f.tgt = .ma then f.timm else 0 }) rfl (fun hma => if_pos hma) v
  simp only [execUld, hinto]

end IgnoredFields

/-- Settles O52, by Instruction: what is cleared is read nowhere in its meaning. -/
theorem ignoredFieldsHaveNoEffect : Obligations.IgnoredFieldsHaveNoEffect := by
  unfold Obligations.IgnoredFieldsHaveNoEffect
  intro i s
  symm
  cases i with
  | halt f => rfl
  | add f => exact congrArg finish (dispatchArith_bothSides f s .add)
  | sub f => exact congrArg finish (dispatchArith_bothSides f s .sub)
  | mul f => exact congrArg finish (dispatchArith_bothSides f s .mul)
  | div f => exact congrArg finish (dispatchArith_bothSides f s .div)
  | mov f => exact execMov_usedPart f s
  | ld f => rw [Instr.usedPart, exec, exec, execLd, execLd, readTarget_targetOnly]
  | uld f => exact execUld_usedPart f s
  | bz f => rw [Instr.usedPart, exec, exec, execBz, execBz, readTarget_bothSides, readSource_bothSides]
  | swi f => rfl
  | call f => rw [Instr.usedPart, exec, exec, execCall, execCall, readTarget_targetOnly]
  | ret f => rfl
  | nop b f => rfl

/-! ## Outputs and rendering (R35, R227) -/

/-- A view of a state that differs in what execution never reads: the two parameters of the renderer and the outputs. -/
structure View where
  enable : Bool → Bool
  upper : Bool → Bool
  console : List Char
  lines : List Line → List Line

def View.apply (w : View) (s : State) : State :=
  { s with
    cfg := { s.cfg with traceEnable := w.enable s.cfg.traceEnable, hexUpper := w.upper s.cfg.hexUpper }
    console := w.console ++ s.console
    trace := w.lines s.trace }

@[simp] theorem View.apply_mem (w : View) (s : State) : (w.apply s).mem = s.mem := rfl

/-- `State.afterOutputs` as a view. -/
def View.afterOutputs (console : List Char) (trace : List Line) : View := ⟨id, id, console, (trace ++ ·)⟩

theorem View.afterOutputs_apply (console : List Char) (trace : List Line) :
    (View.afterOutputs console trace).apply = State.afterOutputs console trace := rfl

/-- `State.withoutTrace` as a view. -/
def View.withoutTrace : View := ⟨fun _ => false, fun _ => true, [], fun _ => []⟩

theorem View.withoutTrace_apply : View.withoutTrace.apply = State.withoutTrace := rfl

section Views
variable (w : View) (f : Fields) (s : State)

theorem readOperand_view (m : Operand) (imm : Word) : readOperand m imm (w.apply s) = readOperand m imm s := by
  cases m with
  | reg r => cases r <;> rfl
  | _ => rfl

theorem readTarget_view : readTarget f (w.apply s) = readTarget f s := readOperand_view w s f.tgt f.timm

theorem readSource_view : readSource f (w.apply s) = readSource f s := readOperand_view w s f.src f.simm

theorem finish_pushAndAdvance_view (v : Word) :
    finish (pushAndAdvance (w.apply s) v) = mapNext w.apply (finish (pushAndAdvance s v)) := by
  cases h : hasRoom s.cfg.esDepth s.es.length with
  | true =>
    rw [pushAndAdvance_of_hasRoom h, pushAndAdvance_of_hasRoom (s := w.apply s) h]
    rfl
  | false =>
    rw [pushAndAdvance_of_full h, pushAndAdvance_of_full (s := w.apply s) h]
    rfl

theorem finish_dispatchArith_view (op : ArithOp) :
    finish (dispatchArith op f (w.apply s)) = mapNext w.apply (finish (dispatchArith op f s)) := by
  rw [dispatchArith, dispatchArith, readTarget_view, readSource_view]
  cases readTarget f s with
  | error k => rfl
  | ok a =>
    cases readSource f s with
    | error k => rfl
    | ok b =>
      simp only [withValue_ok]
      cases arithUnit op a b with
      | error k => rfl
      | ok r => exact finish_pushAndAdvance_view w s r

theorem moveInto_view (v : Word) : moveInto f v (w.apply s) = (moveInto f v s).map w.apply := by
  unfold moveInto
  cases f.tgt with
  | reg r => cases r <;> rfl
  | _ => rfl

theorem unloadInto_view (v : Word) : unloadInto f v (w.apply s) = (unloadInto f v s).map w.apply := by
  unfold unloadInto
  cases f.tgt with
  | reg r => cases r <;> rfl
  | ma =>
    rw [View.apply_mem]
    cases memWrite16 s.mem f.timm v <;> rfl
  | _ => rfl

theorem pushCS_view (v : Word) : (w.apply s).pushCS v = (s.pushCS v).map w.apply := by
  unfold State.pushCS
  by_cases hroom : hasRoom s.cfg.csDepth s.cs.length = true
  · rw [if_pos hroom]
    exact if_pos hroom
  · rw [if_neg hroom]
    exact if_neg hroom

theorem emitConsole_view (items : List Char) : (w.apply s).emitConsole items = w.apply (s.emitConsole items) := by
  simp [State.emitConsole, View.apply]

theorem execMov_view : execMov f (w.apply s) = mapNext w.apply (execMov f s) := by
  rw [execMov, execMov, readSource_view]
  cases readSource f s with
  | error k => rfl
  | ok v =>
    rw [withValue_ok, withValue_ok, moveInto_view]
    cases moveInto f v s <;> rfl

theorem execLd_view : execLd f (w.apply s) = mapNext w.apply (execLd f s) := by
  rw [execLd, execLd, readTarget_view]
  cases readTarget f s with
  | error k => rfl
  | ok v => exact finish_pushAndAdvance_view w s v

theorem execUld_view : execUld f (w.apply s) = mapNext w.apply (execUld f s) := by
  obtain ⟨hempty, he⟩ | ⟨l, v, htop, _⟩ := execUld_cases f s
  · rw [he]
    exact stackUnderflowIsUldOnEmptyStack.1 f (w.apply s) hempty
  · have hinto : unloadInto f v { w.apply s with es := l } = (unloadInto f v { s with es := l }).map w.apply :=
      unloadInto_view w f { s with es := l } v
    rw [execUld_of_concat htop, execUld_of_concat (s := w.apply s) htop, hinto]
    cases unloadInto f v { s with es := l } <;> rfl

theorem execBz_view : execBz f (w.apply s) = mapNext w.apply (execBz f s) := by
  rw [execBz, execBz, readTarget_view, readSource_view]
  cases readTarget f s with
  | error k => rfl
  | ok t =>
    cases readSource f s with
    | error k => rfl
    | ok a =>
      simp only [withValue_ok]
      cases testsZero t <;> rfl

theorem execSwi_view : execSwi f (w.apply s) = mapNext w.apply (execSwi f s) := by
  unfold execSwi
  split
  · exact congrArg (fun t => finish (.sequential t)) (emitConsole_view w s _)
  · exact congrArg (fun t => finish (.sequential t)) (emitConsole_view w s _)
  · rfl

theorem execCall_view : execCall f (w.apply s) = mapNext w.apply (execCall f s) := by
  rw [execCall, execCall, readTarget_view]
  cases readTarget f s with
  | error k => rfl
  | ok t =>
    have hpush : (w.apply s).pushCS (nextSequential (w.apply s).pc) = (s.pushCS (nextSequential s.pc)).map w.apply :=
      pushCS_view w s _
    rw [withValue_ok, withValue_ok, hpush]
    cases s.pushCS (nextSequential s.pc) <;> rfl

theorem execRet_view : execRet f (w.apply s) = mapNext w.apply (execRet f s) := by
  obtain ⟨hempty, he⟩ | ⟨l, r, htop, he⟩ := execRet_cases f s <;> rw [he]
  · exact (retPopsCallStack f (w.apply s)).2 hempty
  · exact (retPopsCallStack f (w.apply s)).1 l r htop

/-- Execution commutes with every view. -/
theorem exec_view (i : Instr) : exec i (w.apply s) = mapNext w.apply (exec i s) := by
  cases i with
  | halt f => rfl
  | add f => exact finish_dispatchArith_view w f s .add
  | sub f => exact finish_dispatchArith_view w f s .sub
  | mul f => exact finish_dispatchArith_view w f s .mul
  | div f => exact finish_dispatchArith_view w f s .div
  | mov f => exact execMov_view w f s
  | ld f => exact execLd_view w f s
  | uld f => exact execUld_view w f s
  | bz f => exact execBz_view w f s
  | swi f => exact execSwi_view w f s
  | call f => exact execCall_view w f s
  | ret f => exact execRet_view w f s
  | nop b f => rfl

/-- So does a step, where the view commutes with the trace line. -/
theorem step_view (hemit : ∀ i, (w.apply s).emitTrace i = w.apply (s.emitTrace i)) :
    step (w.apply s) = mapNext w.apply (step s) := by
  have hstatus : (w.apply s).status = s.status := rfl
  have hfetch : fetchInstr (w.apply s) = fetchInstr s := rfl
  cases h : s.status with
  | halted => simp only [step, hstatus, h, mapNext]
  | faulted k => simp only [step, hstatus, h, mapNext]
  | running =>
    cases hi : fetchInstr s with
    | error k =>
      rw [step_of_fetchInstr_error h hi, step_of_fetchInstr_error (s := w.apply s) h hi]
      rfl
    | ok i =>
      rw [step_of_fetchInstr_ok h hi, step_of_fetchInstr_ok (s := w.apply s) h hi, hemit, exec_view]

end Views

/-- Outputs put in front stay in front of what a step emits. -/
theorem step_afterOutputs (console : List Char) (trace : List Line) (s : State) :
    step (s.afterOutputs console trace) = mapNext (State.afterOutputs console trace) (step s) := by
  refine step_view (.afterOutputs console trace) s fun i => ?_
  by_cases h : s.cfg.traceEnable = true <;> simp [View.afterOutputs_apply, State.emitTrace, State.afterOutputs, h]

/-- A state is its own outputs put in front of the state without any. -/
theorem State.afterOutputs_withoutOutputs (s : State) : s.withoutOutputs.afterOutputs s.console s.trace = s := by
  simp [State.afterOutputs, State.withoutOutputs]

/-- Settles O53: every state is its outputs put in front of the state without any. -/
theorem outputsOnlyGrowAndAreNeverRead : Obligations.OutputsOnlyGrowAndAreNeverRead := by
  unfold Obligations.OutputsOnlyGrowAndAreNeverRead
  intro s
  rw [← step_afterOutputs, State.afterOutputs_withoutOutputs]

/-- The view without the trace has tracing off, so no line is appended there. -/
theorem step_withoutTrace (s : State) : step s.withoutTrace = mapNext State.withoutTrace (step s) := by
  refine step_view .withoutTrace s fun i => ?_
  rw [View.withoutTrace_apply, s.emitTrace_eq]
  rfl

/-- Settles O54: both choices of the parameters have the same view without the trace. -/
theorem tracingDoesNotAffectExecution : Obligations.TracingDoesNotAffectExecution := by
  unfold Obligations.TracingDoesNotAffectExecution
  intro s enable upper
  calc mapNext State.withoutTrace (step (s.withRendering enable upper))
      = step (s.withRendering enable upper).withoutTrace := (step_withoutTrace _).symm
    _ = step s.withoutTrace := rfl
    _ = mapNext State.withoutTrace (step s) := step_withoutTrace s

/-! ## The step and the host (R111, R119, R253) -/

/-- Settles O45, by the status test of `step`. -/
theorem stoppedEngineTakesNoStep : Obligations.StoppedEngineTakesNoStep := by
  unfold Obligations.StoppedEngineTakesNoStep
  exact fun s => ⟨fun h => by simp only [step, h], fun k h => by simp only [step, h], fun t h => (step_next h).1⟩

/-- Settles O43: the six bytes are those the fetch decodes. -/
theorem stepRunsDecodedInstruction : Obligations.StepRunsDecodedInstruction := by
  unfold Obligations.StepRunsDecodedInstruction
  intro s i hrunning hfits hdecode
  have hfetch : fetchInstr s = .ok i := by
    rw [(fetchReadsSixBytesOrFaults s).2 hfits]
    cases hdecode
    rfl
  exact step_of_fetchInstr_ok hrunning hfetch

/-- Where the host may resume, only the status changes. -/
theorem State.resume_of_faulted {s : State} {k : FaultKind} (hfault : s.status = .faulted k)
    (hhost : s.cfg.hostResume = true) : s.resume = some { s with status := .running } := by
  simp only [State.resume, hfault, hhost, if_true]

/-- Settles O40, by the cases of the status and of HOST_RESUME. -/
theorem resumeOnlyAfterFault : Obligations.ResumeOnlyAfterFault := by
  unfold Obligations.ResumeOnlyAfterFault
  refine fun s => ⟨fun k => State.resume_of_faulted, ?_⟩
  rintro (h | h | h)
  · simp only [State.resume, h]
  · simp only [State.resume, h]
  · unfold State.resume
    split <;> simp [h]

/-- Two states that differ in the trace alone step alike but for it: both are their outputs put in front of the same
state. -/
theorem step_with_trace {s t : State} (h : step s = .next t) (trace : List Line) :
    ∃ u, step { s with trace := trace } = .next u ∧ u = { t with trace := u.trace } := by
  have hs := outputsOnlyGrowAndAreNeverRead s
  have hr := outputsOnlyGrowAndAreNeverRead { s with trace := trace }
  rw [h] at hs
  have hsame : State.withoutOutputs { s with trace := trace } = s.withoutOutputs := rfl
  rw [hsame] at hr
  cases hstep : step s.withoutOutputs with
  | next t' =>
    rw [hstep] at hs hr
    cases hs
    exact ⟨_, hr, rfl⟩
  | fault k => rw [hstep] at hs; cases hs
  | refused k => rw [hstep] at hs; cases hs

/-- Settles O41: a fault that popped nothing left all but status and trace as they were, so the resumed state is the one
before the step but for its trace. -/
theorem resumedFaultRecurs : Obligations.ResumedFaultRecurs := by
  unfold Obligations.ResumedFaultRecurs
  intro s t k h hfault hes hhost
  have hcfg : t.cfg = s.cfg := configurationIsStatic s t (.inl h)
  have hrunning : s.status = .running := (step_next h).1
  have hprecise := (faultIsPrecise s t k h hfault).1
  have hresumed : { t with status := .running } = { s with trace := t.trace } := by
    rw [hprecise, hes, ← hrunning]
  obtain ⟨u, hu, heq⟩ := step_with_trace h t.trace
  exact ⟨_, u, State.resume_of_faulted hfault (by rw [hcfg, hhost]), by rw [hresumed, hu], heq⟩

/-! ## Stores and the fetch (R64) -/

/-- The fetch decodes the bytes that memory reads as, whatever function gives them. -/
theorem fetchInstr_of_read_eq {s : State} {byte : Nat → Byte} (hfits : s.pc.toNat ≤ 0xFFFA)
    (hread : ∀ x, s.mem.read x = byte x) :
    fetchInstr s = .ok (decode (joinBytes (byte s.pc.toNat) (byte (s.pc.toNat + 1)) (byte (s.pc.toNat + 2))
      (byte (s.pc.toNat + 3)) (byte (s.pc.toNat + 4)) (byte (s.pc.toNat + 5)))) := by
  rw [(fetchReadsSixBytesOrFaults s).2 hfits]
  simp only [hread]

/-- Settles O51: the bytes the statement names are those memory holds after the store. -/
theorem storeIsSeenByFetch : Obligations.StoreIsSeenByFetch := by
  unfold Obligations.StoreIsSeenByFetch
  intro f s l v p byte hmem htop hma himm hfits hbyte
  obtain ⟨m, hstore⟩ := exists_memWrite16_ok himm s.mem v
  refine ⟨_, execUld_stores htop hma hstore, fetchInstr_of_read_eq hfits fun x => ?_⟩
  rw [hbyte]
  exact memWrite16_read hmem hstore x

end Sys2Proof.Machine
end
